-- ==== Sys2Proof/Word.lean ====
section
/-! DEFINITION. The bit widths of the block (00_scope.md R4; 30_encoding.md R50). Plain abbreviations, so that the
library's lemmas about bit vectors apply. Bit 7 of a byte is its most significant bit (20_memory.md R34). -/

namespace Sys2Proof

/-- A byte: 8 bits, read as unsigned unless a rule says "signed" (00_scope.md section 5.1, `BYTE_W` of R4). -/
abbrev Byte := BitVec 8

/-- A table index, `i mod 256`: 8 bits, so that none falls outside a table (10_state.md R23, 20_memory.md R32). -/
abbrev Index := BitVec 8

/-- A shift amount: 3 bits, exactly the range 0 to 7 (10_state.md R16). -/
abbrev Shift := BitVec 3

/-- A beat word: the 11 input bits of one beat (30_encoding.md R50). -/
abbrev BeatWord := BitVec 11

end Sys2Proof
end

