-- ==== Sys2Proof/Config.lean ====
section
/-! DEFINITION. What an instance of the block fixes for its whole life (the table pair), and the values the spec leaves
free. Nothing here changes from beat to beat (00_scope.md R6, R7; 70_reset_and_hazards.md R151). -/

namespace Sys2Proof

/-- A table pair `(KS_ROM, SH_ROM)`, as ONE value (00_scope.md R6). Both fields are functions on the 8-bit index, so a
wrong length cannot be written down (10_state.md R23), and a shift amount has 3 bits, so one above 7 cannot either
(10_state.md R16, 40_transform_datapath.md R79). It is configuration and no part of `State`. -/
structure Config.Tables where
  /-- KeystreamTable: the 8-bit two's-complement pattern the ROM stores (10_state.md R15). -/
  ks : Index → Byte
  /-- ShiftTable: the 3-bit shift amount the ROM stores (10_state.md R16). -/
  sh : Index → Shift
deriving Inhabited

/-- The table pair of this instance of the block: OPEN (00_scope.md R5, D11), so it has no body and nothing in Lean can
learn an entry of it. Every definition of the datapath takes a pair as an argument; only a meaning supplies this one
(log 1). -/
opaque Config.tables : Config.Tables

/-- `POS_POWERUP`, the value of `POS` before the first `RST`, `CLR` or `DTF`: a free value (10_state.md R22, D9, log 5). -/
opaque Config.posPowerup : Byte

/-- The beat word the host chooses when none is listed in `State.pending`: a free value for each number of earlier such
choices, since the beat word is "an input chosen freely by the host at every beat" (41_beat_operations.md R90, log 3). -/
opaque Config.hostBeat : Nat → BeatWord

/-- `TABLE_LEN` (00_scope.md R4). -/
def Config.tableLen : Nat := 256

/-- A table pair as somebody writes it down, before it is checked (60_exceptions.md R139): the keystream entries as
integers and the shift amounts as natural numbers, of any length and in any range. -/
structure Config.RawTables where
  ks : List Int
  sh : List Nat
deriving DecidableEq, Repr

end Sys2Proof
end

