-- ==== Sys2Proof/Syntax.lean ====
section
/-! DEFINITION. The beat operations (30_encoding.md R55), one constructor for each row of spec/opcode_table.json, and the
shape of a row of that table. -/

namespace Sys2Proof

/-- The five beat operations (41_beat_operations.md R90). An ignored field of the beat word is no operand of the
operation ("Operands: none", R91 to R93), so it has no place here: the decoder drops it (30_encoding.md R56). -/
inductive Instr where
  /-- `RST`: reset (R91). -/
  | rst
  /-- `NOP`: idle beat (R92). -/
  | nop
  /-- `CLR`: clear the position (R93). -/
  | clr
  /-- `DTB b`: detransform byte `b` at the current position (R94). -/
  | dtb (b : Byte)
  /-- `DTF b`: detransform `b` as the first byte of a payload (R95). -/
  | dtf (b : Byte)
deriving DecidableEq, Repr

/-- A row of the operation map: a beat word `w` selects it when `w &&& mask = value` (30_encoding.md R55). -/
structure OpcodeRow where
  mnemonic : String
  mask : BeatWord
  value : BeatWord
deriving DecidableEq, Repr

/-- The mnemonic of an operation, as spec/opcode_table.json spells it. -/
def Instr.mnemonic : Instr → String
  | .rst => "RST"
  | .nop => "NOP"
  | .clr => "CLR"
  | .dtb _ => "DTB"
  | .dtf _ => "DTF"

end Sys2Proof
end

