-- ==== Sys2Proof/WellFormed.lean ====
section
/-! DEFINITION. Well-formedness. No check is made of an operation: "No beat word is illegal, reserved or a hint"
(30_encoding.md R56), and the types of `Instr` admit exactly the operands of R52. What can be ill-formed is a table pair as
it is written down, and 60_exceptions.md R139 gives the four checks on it. -/

namespace Sys2Proof

/-- A keystream entry that R139 accepts: a signed value -128 to 127, or the same entry written as an unsigned byte
128 to 255. -/
def Config.ksEntryOk (v : Int) : Bool := -128 ≤ v && v ≤ 255

/-- A shift amount that R139 accepts: 0 to 7. -/
def Config.shEntryOk (n : Nat) : Bool := n ≤ 7

/-- The KeystreamTable has exactly 256 entries. -/
def Config.RawTables.ksLengthOk (r : Config.RawTables) : Bool := r.ks.length == Config.tableLen

/-- The ShiftTable has exactly 256 entries. -/
def Config.RawTables.shLengthOk (r : Config.RawTables) : Bool := r.sh.length == Config.tableLen

/-- Every keystream entry is in range. -/
def Config.RawTables.ksRangeOk (r : Config.RawTables) : Bool := r.ks.all Config.ksEntryOk

/-- Every shift amount is in range. -/
def Config.RawTables.shRangeOk (r : Config.RawTables) : Bool := r.sh.all Config.shEntryOk

/-- The table pairs for which a machine exists (60_exceptions.md R139). -/
def Config.RawTables.wf (r : Config.RawTables) : Bool :=
  r.ksLengthOk && r.shLengthOk && r.ksRangeOk && r.shRangeOk

end Sys2Proof
end

