-- ==== Sys2Proof/Decode.lean ====
section
/-! DEFINITION. The beat word, its fields, the decoder and the encoder (30_encoding.md R50, R55, R56, R58). -/

namespace Sys2Proof

/-! ## The fields of the one format `BW11` (R50) -/

/-- `BW[10]`, the port `rst`. -/
def fieldRst (w : BeatWord) : Bool := w.getLsbD 10

/-- `BW[9]`, the port `in_valid`. -/
def fieldValid (w : BeatWord) : Bool := w.getLsbD 9

/-- `BW[8]`, the port `in_first`. -/
def fieldFirst (w : BeatWord) : Bool := w.getLsbD 8

/-- `BW[7:0]`, the port `in_data`. -/
def fieldData (w : BeatWord) : Byte := w.extractLsb' 0 8

/-- The beat word `{rst, valid, first, data}` of four port values (R50). -/
def packBeat (rst valid first : Bool) (data : Byte) : BeatWord :=
  BitVec.ofBool rst ++ BitVec.ofBool valid ++ BitVec.ofBool first ++ data

/-! ## The decoder -/

/-- The operation a beat word selects. It is total, and examines `rst`, then `valid` and `first` (R55); the ignored fields
of R56 are not looked at. -/
def decode (w : BeatWord) : Instr :=
  match fieldRst w, fieldValid w, fieldFirst w with
  | true, _, _ => .rst
  | false, false, false => .nop
  | false, false, true => .clr
  | false, true, false => .dtb (fieldData w)
  | false, true, true => .dtf (fieldData w)

/-- Why a number is not read as a beat word. -/
inductive DecodeError where
  /-- The number does not fit in 11 bits: "There is one length (11 bits) and no other format" (R50). Raised by
  `decodeNumber` alone; no beat can raise it. -/
  | notElevenBits
deriving DecidableEq, Repr

/-- The operation a number selects, read as a beat word; a number of more than 11 bits is rejected by name (log 6). -/
def decodeNumber (w : Nat) : Except DecodeError Instr :=
  if w < 2048 then .ok (decode (BitVec.ofNat 11 w)) else .error .notElevenBits

/-- The same for the numbers of spec/opcode_table.json. The format has one length, so the row's padded length `nbits`
decides nothing. -/
def decodeTableWord (_nbits w : Nat) : Option Instr :=
  match decodeNumber w with
  | .ok i => some i
  | .error _ => none

/-! ## The encoder -/

/-- The canonical beat word of an operation: 0 in every ignored field (R58). -/
def encode : Instr → BeatWord
  | .rst => packBeat true false false 0#8
  | .nop => packBeat false false false 0#8
  | .clr => packBeat false false true 0#8
  | .dtb b => packBeat false true false b
  | .dtf b => packBeat false true true b

/-- A beat word with every field its operation ignores put to 0 (R56, R58). -/
def canonicalWord (w : BeatWord) : BeatWord :=
  if fieldRst w then w &&& 0x400#11
  else if fieldValid w then w
  else w &&& 0x700#11

/-! ## The operation map (R55) -/

/-- The row `RST`. -/
def rowRst : OpcodeRow := ⟨"RST", 0x400#11, 0x400#11⟩

/-- The row `NOP`. -/
def rowNop : OpcodeRow := ⟨"NOP", 0x700#11, 0x000#11⟩

/-- The row `CLR`. -/
def rowClr : OpcodeRow := ⟨"CLR", 0x700#11, 0x100#11⟩

/-- The row `DTB`. -/
def rowDtb : OpcodeRow := ⟨"DTB", 0x700#11, 0x200#11⟩

/-- The row `DTF`. -/
def rowDtf : OpcodeRow := ⟨"DTF", 0x700#11, 0x300#11⟩

/-- The operation map, in the order of R55. -/
def opcodeRows : List OpcodeRow := [rowRst, rowNop, rowClr, rowDtb, rowDtf]

/-- The row of an operation. -/
def opcodeRowOf : Instr → OpcodeRow
  | .rst => rowRst
  | .nop => rowNop
  | .clr => rowClr
  | .dtb _ => rowDtb
  | .dtf _ => rowDtf

/-- "A beat word `w` selects the row with `(w & mask) = match`" (R55). -/
def rowSelects (r : OpcodeRow) (w : BeatWord) : Bool := w &&& r.mask == r.value

end Sys2Proof
end

