-- ==== Sys2Proof/Machine/State.lean ====
section
/-! DEFINITION. The state of the block as plain data, the reasons a step could stop, and the states after reset and after
power-up (10_state.md; 70_reset_and_hazards.md). -/

namespace Sys2Proof.Machine

/-- The state of the block. `pos` is all the architectural state there is (10_state.md R11); the other fields are the
traffic over its ports, which a step must read and answer, and the number of free choices the host has made.
No register, flag, control register, mode, exception register or byte-addressed memory exists (R10, R13, R14, R20;
20_memory.md R30, R39), and the tables are configuration, not state (R15 to R17). -/
structure State where
  /-- `POS`, the position register: `i mod 256` for the next byte a `DTB` processes (R11). -/
  pos : Byte
  /-- The input ports over the beats to come: the beat words the host is still to present, the next one first
  (R18, 60_exceptions.md R145, log 2). -/
  pending : List BeatWord
  /-- How many beat words the host has chosen beyond the listed ones: the argument of the free value `Config.hostBeat`
  (log 3). The model's own field. -/
  draws : Nat
  /-- The output ports in the latest beat: `some v` is `out_valid = 1` with `out_data = v`, `none` is `out_valid = 0`,
  where no value of `out_data` may be exposed (R19). -/
  out : Option Byte
  /-- The bytes emitted so far, in order: the space `OUT` and the observation of a run (20_memory.md R30,
  41_beat_operations.md R90, log 4). -/
  emitted : List Byte
deriving DecidableEq, Repr

/-- What one beat does to the block: the new `POS` and the output, "either nothing or one byte"
(41_beat_operations.md R90). -/
structure BeatResult where
  pos : Byte
  out : Option Byte
deriving DecidableEq, Repr

/-- The reasons a step stops with a fault: NONE. "The block raises no synchronous exception. There are zero cause codes"
(60_exceptions.md R130); a model must not invent one. Safe and exact: there is no constructor to raise. -/
inductive Fault where
deriving DecidableEq, Repr

/-- The reasons a step is refused. -/
inductive Refusal where
  /-- An instruction of the opcode table without a meaning. Only an arm of `exec` could raise it, and no arm does: every
  operation of the block has its meaning. Safe. -/
  | notModelled (mnemonic : String)
deriving DecidableEq, Repr

/-- The block right after reset (10_state.md R21): `POS = 0` and `out_valid = 0`. The tables are untouched and are not here.
The host has presented nothing yet, and the observation of the run starts here: `pending`, `emitted` and `draws` are the
model's choice (logs 2, 3, 4). -/
def State.reset : State where
  pos := 0#8
  pending := []
  draws := 0
  out := none
  emitted := []

/-- The block after power-up and before any reset: `POS` is the free value `POS_POWERUP` (10_state.md R22, log 5). -/
def State.powerUp : State := { State.reset with pos := Config.posPowerup }

end Sys2Proof.Machine
end

