-- ==== Sys2Proof/Machine/Operands.lean ====
section
/-! DEFINITION. The operands of the datapath: the data byte, the table index, the shift amount and the keystream byte
(30_encoding.md R51 to R54; 40_transform_datapath.md R73, R75; 20_memory.md R31). -/

namespace Sys2Proof.Machine

/-- `U8(v)`: the unsigned byte whose two's-complement reading is the signed value `v` of -128 to 127
(40_transform_datapath.md R73): `v` itself if it is not negative, `v + 256` if it is. Outside that range it is given no
meaning by the spec and used only as log 7 says. -/
def u8 (v : Int) : Byte := if 0 ≤ v then BitVec.ofInt 8 v else BitVec.ofInt 8 (v + 256)

/-- `S8(u)`, the inverse of `U8`: `u` if `u < 128`, else `u - 256` (R73). -/
def s8 (u : Byte) : Int := if u.toNat < 128 then (u.toNat : Int) else (u.toNat : Int) - 256

/-- The table index of byte `i` of a payload: `i mod 256` (40_transform_datapath.md R75, 00_scope.md R4). -/
def tableIndex (i : Nat) : Index := BitVec.ofNat 8 i

/-- A read `KS[k]` of the keystream ROM: the stored 8-bit pattern (10_state.md R15). -/
def readKs (t : Config.Tables) (k : Index) : Byte := t.ks k

/-- `KS_ROM[k]`: the keystream entry as the signed integer it stands for (10_state.md R15). -/
def ksRom (t : Config.Tables) (k : Index) : Int := s8 (readKs t k)

/-- A read `SH[k]` of the shift ROM, an unsigned number 0 to 7 used as it is (10_state.md R16, 30_encoding.md R54). -/
def readSh (t : Config.Tables) (k : Index) : Shift := t.sh k

/-- `LOOKUP(k)`: the shift amount and the keystream byte, read at the same index (40_transform_datapath.md R75,
20_memory.md R31). -/
def lookup (t : Config.Tables) (k : Index) : Shift × Byte := (readSh t k, u8 (ksRom t k))

end Sys2Proof.Machine
end

