-- ==== Sys2Proof/Machine/Ops.lean ====
section
/-! DEFINITION. The shared operations: the datapath of 40_transform_datapath.md, taking a beat word from the input ports and
committing the result of a beat. There is no operation for taking an exception or returning from one, because the block
has no exception, interrupt, trap, handler or saved state (60_exceptions.md R130, R134, R136), and none over
byte-addressed memory, because the block has none (20_memory.md R30, R39). -/

namespace Sys2Proof.Machine

/-! ## The datapath -/

/-- `ROTL8(b, s)`: rotate left, towards bit 7 (40_transform_datapath.md R70, R71). The branch on `s = 0` is R77's: the case
does not rest on a shift by the full width. -/
def rotl8 (b : Byte) (s : Shift) : Byte :=
  if s = 0#3 then b
  else (b <<< s.toNat) ||| (b >>> (8 - s.toNat))

/-- `ROTR8(b, s)`, which is `ROTL8(b, (8 - s) mod 8)`: a reference function the block does not contain (R72). -/
def rotr8 (b : Byte) (s : Shift) : Byte := rotl8 b (BitVec.ofNat 3 ((8 - s.toNat) % 8))

/-- `DETRANSFORM_BYTE(k, b)`: look up, rotate, then XOR (R76). -/
def detransformByte (t : Config.Tables) (k : Index) (b : Byte) : Byte :=
  rotl8 b (lookup t k).1 ^^^ (lookup t k).2

/-! ## The ports -/

/-- What a beat with result `r` does to the state: `POS` and the output ports take the result's values, and a byte that was
emitted joins the output sequence (41_beat_operations.md R90; 60_exceptions.md R144). -/
def commit (s : State) (r : BeatResult) : State :=
  { s with pos := r.pos, out := r.out, emitted := s.emitted ++ r.out.toList }

/-- The beat word on the input ports in the next beat, and the state once it has been sampled. It is the first listed one;
when none is listed the host chooses one freely (R90, R143; logs 2, 3). -/
def sampleBeat (s : State) : BeatWord × State :=
  match s.pending with
  | w :: rest => (w, { s with pending := rest })
  | [] => (Config.hostBeat s.draws, { s with draws := s.draws + 1 })

/-- The state in which the host presents the beat word numbered `w` next. A number that is no beat word (R50) is not
presented (log 6). -/
def placeBeat (s : State) (w : Nat) : State :=
  if w < 2048 then { s with pending := BitVec.ofNat 11 w :: s.pending } else s

end Sys2Proof.Machine
end

