-- ==== Sys2Proof/Machine/Control.lean ====
section
/-! DEFINITION. The operations that transform no byte: `RST`, `NOP`, `CLR` (41_beat_operations.md R91 to R93). -/

namespace Sys2Proof.Machine

/-- `RST`: `POS <- 0 ; emit nothing` (R91). It reads nothing. -/
def rstBeat : BeatResult := ⟨0#8, none⟩

/-- `NOP`: `emit nothing`, `POS` unchanged (R92). -/
def nopBeat (p : Byte) : BeatResult := ⟨p, none⟩

/-- `CLR`: `POS <- 0 ; emit nothing` (R93). It reads nothing. -/
def clrBeat : BeatResult := ⟨0#8, none⟩

/-- The meaning of `RST` (R91). The bytes already emitted stay emitted, and the tables are untouched. -/
def execRst (s : State) : Host.Outcome State Fault Refusal := .next (commit s rstBeat)

/-- The meaning of `NOP` (R92). -/
def execNop (s : State) : Host.Outcome State Fault Refusal := .next (commit s (nopBeat s.pos))

/-- The meaning of `CLR` (R93). -/
def execClr (s : State) : Host.Outcome State Fault Refusal := .next (commit s clrBeat)

end Sys2Proof.Machine
end

