-- ==== Sys2Proof/Machine/Transform.lean ====
section
/-! DEFINITION. The operations that transform a byte: `DTB`, `DTF` (41_beat_operations.md R94, R95). -/

namespace Sys2Proof.Machine

/-- `DTB b` at position `p`: emit `DETRANSFORM_BYTE(p, b)`; `POS <- (POS + 1) mod 256` (R94). -/
def dtbBeat (t : Config.Tables) (p : Byte) (b : Byte) : BeatResult := ⟨p + 1#8, some (detransformByte t p b)⟩

/-- `DTF b`: emit `DETRANSFORM_BYTE(0, b)`; `POS <- 1`. `POS` is not read (R95). -/
def dtfBeat (t : Config.Tables) (b : Byte) : BeatResult := ⟨1#8, some (detransformByte t 0#8 b)⟩

/-- The meaning of `DTB b` (R94), with this instance's tables. -/
def execDtb (b : Byte) (s : State) : Host.Outcome State Fault Refusal := .next (commit s (dtbBeat Config.tables s.pos b))

/-- The meaning of `DTF b` (R95), with this instance's tables. -/
def execDtf (b : Byte) (s : State) : Host.Outcome State Fault Refusal := .next (commit s (dtfBeat Config.tables b))

end Sys2Proof.Machine
end

