-- ==== Sys2Proof/Machine/Dispatch.lean ====
section
/-! DEFINITION. One arm for each beat operation (41_beat_operations.md R90). -/

namespace Sys2Proof.Machine

def exec (i : Instr) (s : State) : Host.Outcome State Fault Refusal :=
  match i with
  | .rst => Sys2Proof.Machine.execRst s
  | .nop => Sys2Proof.Machine.execNop s
  | .clr => Sys2Proof.Machine.execClr s
  | .dtb b => Sys2Proof.Machine.execDtb b s
  | .dtf b => Sys2Proof.Machine.execDtf b s

end Sys2Proof.Machine
end

