-- ==== Sys2Proof/Machine/Step.lean ====
section
/-! DEFINITION. One step is one beat: sample a beat word, decode it, run it (41_beat_operations.md R90). -/

namespace Sys2Proof.Machine

/-- One beat of the block. -/
def step (s : State) : Host.Outcome State Fault Refusal :=
  exec (decode (sampleBeat s).1) (sampleBeat s).2

/-- `s` with the beat word numbered `w` presented in the very next beat (log 6). The format has one length, so `nbits`
decides nothing. -/
def State.withFetchWord (s : State) (_nbits w : Nat) : State := placeBeat s w

end Sys2Proof.Machine
end

