-- ==== Sys2Proof/Machine/Configure.lean ====
section
/-! DEFINITION. Configuring the block: a table pair is accepted as a unit, or refused by name (60_exceptions.md R139,
00_scope.md R6). It happens before the first beat and is no step of the machine. -/

namespace Sys2Proof.Machine

/-- Why a table pair gives no machine at all (R139). Raised by `configure` alone, never by a beat. Safe. -/
inductive ConfigError where
  /-- The KeystreamTable has not exactly 256 entries. -/
  | keystreamLength
  /-- The ShiftTable has not exactly 256 entries. -/
  | shiftLength
  /-- A keystream entry is outside -128 to 127 and is no unsigned byte 128 to 255. -/
  | keystreamRange
  /-- A shift amount is above 7. -/
  | shiftRange
deriving DecidableEq, Repr

/-- The tables with the entries of `r`, position by position: entry `k` is at index `k` (20_memory.md R39). -/
def tablesOf (r : Config.RawTables) : Config.Tables where
  ks k := u8 (r.ks.getD k.toNat 0)
  sh k := BitVec.ofNat 3 (r.sh.getD k.toNat 0)

/-- The table pair `r` as a configuration, both tables at once, or the first reason against it in the order of
`ConfigError` (log 7). Nothing is truncated, padded or reduced (R139). -/
def configure (r : Config.RawTables) : Except ConfigError Config.Tables :=
  if r.ksLengthOk = false then .error .keystreamLength
  else if r.shLengthOk = false then .error .shiftLength
  else if r.ksRangeOk = false then .error .keystreamRange
  else if r.shRangeOk = false then .error .shiftRange
  else .ok (tablesOf r)

end Sys2Proof.Machine
end

