-- ==== Sys2Proof/Machine/Payload.lean ====
section
/-! DEFINITION. The block as a function of its configuration (41_beat_operations.md R90), its runs over a trace of beats, and
the payload-level functions of the spec: `detransform` (R100), `detransform_from` (R101), the payloads of a trace (R99), the
pseudo-operation `PAYLOAD` (30_encoding.md R59, R60), the ghost position (10_state.md R24), the forward function `F`
(42_payload_laws.md R115) and a split over lanes (R121). -/

namespace Sys2Proof.Machine

/-! ## The step, with the table pair as an argument -/

/-- What an operation does under the table pair `t` when `POS` is `p`. -/
def instrBeat (t : Config.Tables) (p : Byte) : Instr → BeatResult
  | .rst => rstBeat
  | .nop => nopBeat p
  | .clr => clrBeat
  | .dtb b => dtbBeat t p b
  | .dtf b => dtfBeat t b

/-- R90's step function `(KS_ROM, SH_ROM) -> POS -> BW -> (POS', out)`. -/
def beat (t : Config.Tables) (p : Byte) (w : BeatWord) : BeatResult := instrBeat t p (decode w)

/-- One beat of the block whose table pair is `t` (00_scope.md R5: a configuration argument). `step` is the one whose pair
is `Config.tables`. -/
def stepWith (t : Config.Tables) (s : State) : State :=
  commit (sampleBeat s).2 (beat t (sampleBeat s).2.pos (sampleBeat s).1)

/-! ## Runs -/

/-- A run over a list of operations from `POS = p`: the final `POS` and the bytes emitted, in order (60_exceptions.md
R145). -/
def runTrace (t : Config.Tables) (p : Byte) : List Instr → Byte × List Byte
  | [] => (p, [])
  | i :: is =>
    let r := instrBeat t p i
    let q := runTrace t r.pos is
    (q.1, r.out.toList ++ q.2)

/-- The position `i` of the next byte of the payload after a trace, as an unbounded natural number that no register holds
(10_state.md R24), when it was `g` before. -/
def ghostPos (g : Nat) : List Instr → Nat
  | [] => g
  | .rst :: is => ghostPos 0 is
  | .nop :: is => ghostPos g is
  | .clr :: is => ghostPos 0 is
  | .dtb _ :: is => ghostPos (g + 1) is
  | .dtf _ :: is => ghostPos 1 is

/-- The payload bytes of a trace (41_beat_operations.md R99): those before the trace's first payload start, which belong to
a payload begun earlier, and then the bytes of each payload begun in the trace. `RST` and `CLR` begin a payload that stays
empty until a `DTB` comes; `DTF` begins one with its own byte. -/
def splitPayloads : List Instr → List Byte × List (List Byte)
  | [] => ([], [])
  | i :: is =>
    let r := splitPayloads is
    match i with
    | .rst => ([], r.1 :: r.2)
    | .nop => r
    | .clr => ([], r.1 :: r.2)
    | .dtb b => (b :: r.1, r.2)
    | .dtf b => ([], (b :: r.1) :: r.2)

/-- The result of a run, split into payloads (60_exceptions.md R145, by R99): the bytes emitted before the first payload
start, and then the bytes that each payload begun in the trace emits. -/
def runPayloads (t : Config.Tables) (p : Byte) : List Instr → List Byte × List (List Byte)
  | [] => ([], [])
  | i :: is =>
    let r := instrBeat t p i
    let q := runPayloads t r.pos is
    match i with
    | .rst => ([], q.1 :: q.2)
    | .nop => q
    | .clr => ([], q.1 :: q.2)
    | .dtb _ => (r.out.toList ++ q.1, q.2)
    | .dtf _ => ([], (r.out.toList ++ q.1) :: q.2)

/-! ## The payload functions -/

/-- `detransform(raw)`: output byte `i` is `DETRANSFORM_BYTE(i mod 256, raw[i])` (R100). -/
def detransform (t : Config.Tables) (raw : List Byte) : List Byte :=
  raw.mapIdx fun i b => detransformByte t (tableIndex i) b

/-- `detransform_from(p, raw)`: output byte `i` is `DETRANSFORM_BYTE((p + i) mod 256, raw[i])` (R101). -/
def detransformFrom (t : Config.Tables) (p : Byte) (raw : List Byte) : List Byte :=
  raw.mapIdx fun i b => detransformByte t (tableIndex (p.toNat + i)) b

/-- `F_BYTE(k, x)`: XOR with the keystream byte, then rotate right (42_payload_laws.md R115). A reference for tests; no
operation of the block computes it. -/
def forwardByte (t : Config.Tables) (k : Index) (x : Byte) : Byte := rotr8 (x ^^^ (lookup t k).2) (lookup t k).1

/-- `F(x)` (R115). -/
def forward (t : Config.Tables) (x : List Byte) : List Byte :=
  x.mapIdx fun i b => forwardByte t (tableIndex i) b

/-! ## The pseudo-operation `PAYLOAD` -/

/-- The expansion of `PAYLOAD b0 ... b(N-1)` (30_encoding.md R59). -/
def payload : List Byte → List Instr
  | [] => [.clr]
  | b :: bs => .dtf b :: bs.map .dtb

/-- The expansion that starts with `CLR` (30_encoding.md R60). -/
def payloadClr (raw : List Byte) : List Instr := .clr :: raw.map .dtb

/-- The expansion that starts with `RST` (30_encoding.md R60). -/
def payloadRst (raw : List Byte) : List Instr := .rst :: raw.map .dtb

/-- The three ways to begin a payload (41_beat_operations.md R99). -/
inductive PayloadStart where
  /-- With a `DTF` of its first byte; an empty one, which has no first byte, with `CLR` (30_encoding.md R59). -/
  | byDtf
  /-- With `CLR` (R60). -/
  | byClr
  /-- With `RST` (R60). -/
  | byRst
deriving DecidableEq, Repr

/-- The beats of a payload begun in the given way. -/
def payloadBegun (start : PayloadStart) (raw : List Byte) : List Instr :=
  match start with
  | .byDtf => payload raw
  | .byClr => payloadClr raw
  | .byRst => payloadRst raw

/-- A trace without its `NOP` lines (30_encoding.md R59, 41_beat_operations.md R92). -/
def dropNops (is : List Instr) : List Instr := is.filter fun i => i != .nop

/-! ## Lanes -/

/-- What a worker that owns the positions with `mine i` computes: each of its positions with the output byte of it
(42_payload_laws.md R121, 20_memory.md R44). -/
def laneResults (t : Config.Tables) (raw : List Byte) (mine : Nat → Bool) : List (Nat × Byte) :=
  ((raw.zipIdx).filter fun x => mine x.2).map fun x => (x.2, detransformByte t (tableIndex x.2) x.1)

/-- The results placed at their positions `0 .. n-1`; a position without a result holds `none` (R121). -/
def placeResults (n : Nat) (results : List (Nat × Byte)) : List (Option Byte) :=
  (List.range n).map fun i => (results.find? fun r => r.1 == i).map Prod.snd

end Sys2Proof.Machine
end

