-- ==== Sys2Proof/Machine/TraceText.lean ====
section
/-! DEFINITION. The written form of a trace: one beat a line (30_encoding.md R58), and the line of the pseudo-operation
`PAYLOAD` (R59). Text is a list of characters. What R58 leaves open about blanks and the case of a digit is log 8's. -/

namespace Sys2Proof.Machine

/-- The hexadecimal digit of a nibble: a decimal digit below ten, a capital letter from ten on (R58, log 8). -/
def hexChar (n : BitVec 4) : Char :=
  Char.ofNat (if n.toNat < 10 then '0'.toNat + n.toNat else 'A'.toNat + (n.toNat - 10))

/-- How far `c` stands after `first`, if it is one of the `count` characters that begin there. -/
def offsetFrom (first : Char) (count : Nat) (c : Char) : Option Nat :=
  if first.toNat ≤ c.toNat ∧ c.toNat < first.toNat + count then some (c.toNat - first.toNat) else none

/-- The nibble a hexadecimal digit stands for: a decimal digit, or one of six letters in either case (R58, log 8). -/
def hexValue (c : Char) : Option (BitVec 4) :=
  let letter := (offsetFrom 'A' 6 c).orElse fun _ => offsetFrom 'a' 6 c
  ((offsetFrom '0' 10 c).orElse fun _ => letter.map fun n => n + 10).map (BitVec.ofNat 4)

/-- A byte as two hexadecimal digits, the more significant nibble first (R58). -/
def hexByte (b : Byte) : List Char := [hexChar (b.extractLsb' 4 4), hexChar (b.extractLsb' 0 4)]

/-- A line of a trace (R58). -/
def renderLine : Instr → List Char
  | .rst => ['R', 'S', 'T']
  | .nop => ['N', 'O', 'P']
  | .clr => ['C', 'L', 'R']
  | .dtb b => ['D', 'T', 'B', ' ', '0', 'x'] ++ hexByte b
  | .dtf b => ['D', 'T', 'F', ' ', '0', 'x'] ++ hexByte b

/-- A line without its comment: "Text after `;` on a line is a comment" (R58). -/
def stripComment (line : List Char) : List Char := line.takeWhile fun c => c != ';'

/-- The words of a line, split at blanks. The last argument is the word being read. -/
def splitWords : List Char → List Char → List (List Char)
  | [], [] => []
  | [], w => [w]
  | c :: cs, [] => if c = ' ' then splitWords cs [] else splitWords cs [c]
  | c :: cs, w => if c = ' ' then w :: splitWords cs [] else splitWords cs (w ++ [c])

/-- A byte written as two hexadecimal digits. -/
def parseDigits : List Char → Option Byte
  | [h, l] =>
    match hexValue h, hexValue l with
    | some a, some b => some (a ++ b)
    | _, _ => none
  | _ => none

/-- A `data` field, `0xHH` (R58). -/
def parseData : List Char → Option Byte
  | '0' :: 'x' :: ds => parseDigits ds
  | _ => none

/-- A byte of a `PAYLOAD` line, written `0xHH` or, as the programs of 95_test_vectors.md do, `HH` (log 8). -/
def parsePayloadByte (w : List Char) : Option Byte :=
  match parseData w with
  | some b => some b
  | none => parseDigits w

/-- The operation a line of a trace stands for, if it is one of the five forms of R58. -/
def parseLine (line : List Char) : Option Instr :=
  match splitWords (stripComment line) [] with
  | [['R', 'S', 'T']] => some .rst
  | [['N', 'O', 'P']] => some .nop
  | [['C', 'L', 'R']] => some .clr
  | [['D', 'T', 'B'], d] => (parseData d).map .dtb
  | [['D', 'T', 'F'], d] => (parseData d).map .dtf
  | _ => none

/-- The beats a line stands for: one, or the expansion of a `PAYLOAD` line (R59). -/
def expandLine (line : List Char) : Option (List Instr) :=
  match splitWords (stripComment line) [] with
  | ['P', 'A', 'Y', 'L', 'O', 'A', 'D'] :: ws => (ws.mapM parsePayloadByte).map payload
  | _ => (parseLine line).map fun i => [i]

/-- The beat words of a trace: its lines executed top to bottom, each in its canonical encoding (R58). -/
def assemble (lines : List (List Char)) : Option (List BeatWord) :=
  (lines.mapM expandLine).map fun ls => ls.flatten.map encode

end Sys2Proof.Machine
end

