-- ==== Sys2Proof/Machine/Flags.lean ====
section
/-! DEFINITION. The block has no flag, condition code, carry, overflow bit or sticky error bit: its only status is the
output port `out_valid` (10_state.md R13, R19). No operation of the block computes anything else. -/

namespace Sys2Proof.Machine

/-- The output port `out_valid` in the latest beat (R19). -/
def outValid (s : State) : Bool := s.out.isSome

end Sys2Proof.Machine
end

