-- ==== Sys2Proof/Safety.lean ====
section
/-! DEFINITION. What claims are stated in: the state a history of operations leads to, and the duties of the
host (60_exceptions.md R143; 70_reset_and_hazards.md R154). The block itself has no unsafe state: it cannot fault
(R130). -/

namespace Sys2Proof.Machine

/-- The state is the one that the operations `hist`, run from `POS = p` with nothing emitted, lead to: `POS`, the output
sequence, and the output port, which holds the last byte emitted if the last beat emitted one (41_beat_operations.md
R90; 10_state.md R19, R24). Every reachable state follows its history; an arbitrary state need not follow any. -/
def Follows (p : Byte) (hist : List Instr) (s : State) : Prop :=
  s.pos = (runTrace Config.tables p hist).1 ∧
  s.emitted = (runTrace Config.tables p hist).2 ∧
  s.out =
    match hist.getLast? with
    | some (.dtb _) => s.emitted.getLast?
    | some (.dtf _) => s.emitted.getLast?
    | _ => none

/-- No payload byte comes before the trace's first payload start (R143, R154). -/
def StartsEveryPayload (ws : List BeatWord) : Prop := (splitPayloads (ws.map decode)).1 = []

/-- No payload byte is presented in a beat that asserts `rst` (R143). -/
def NoByteInReset (ws : List BeatWord) : Prop := ∀ w ∈ ws, ¬ (fieldRst w = true ∧ fieldValid w = true)

/-- The payload bytes a host means to send: the data of every beat with `in_valid = 1` (10_state.md R18). -/
def presentedBytes (ws : List BeatWord) : List Byte := (ws.filter fun w => fieldValid w).map fieldData

end Sys2Proof.Machine
end

