-- ==== Sys2Proof/Certificates/Slice0/Obligations.lean ====
section
/-! DEFINITION. What is to be proved of the model, rule by rule of the spec. Nothing here rests on an entry of a table, on
`POS_POWERUP`, on what the host chooses freely or on the reset value of `draws`: `t` stands for every table pair, and
where `Config.tables` stands, it is the unknown pair of this instance.
Of the rules cited, the spec marks R12, R24, R37, R60, R72, R80, R101 and R116 to R123 as its own inferences from
other rules ("[derived: ...]"), and R11, R19, R21, R22, R50, R55, R56, R58, R59, R90 to R93, R95, R99, R115, R135, R139,
R143 to R145, R150, R152, R154 and R160 as its own decisions where the source is silent ("[decision: ...]"). -/

open Sys2Proof Sys2Proof.Machine

/-! ## The beat word and its decoding -/

/-- 30_encoding.md R50: the beat word as a number, and its four fields. -/
def Obligations.BeatWordIsItsFourFields : Prop :=
  (∀ rst valid first data,
    (packBeat rst valid first data).toNat =
        rst.toNat * 1024 + valid.toNat * 512 + first.toNat * 256 + data.toNat ∧
      fieldRst (packBeat rst valid first data) = rst ∧
      fieldValid (packBeat rst valid first data) = valid ∧
      fieldFirst (packBeat rst valid first data) = first ∧
      fieldData (packBeat rst valid first data) = data) ∧
  ∀ w, packBeat (fieldRst w) (fieldValid w) (fieldFirst w) (fieldData w) = w

/-- 30_encoding.md R55: the five rows; each word selects exactly one, the one of the operation it decodes to; the words of
each operation and how many they are; the operand is the data field. -/
def Obligations.OperationMapSelectsExactlyOneRow : Prop :=
  opcodeRows.map (fun r => (r.mnemonic, r.mask.toNat, r.value.toNat)) =
      [("RST", 0x400, 0x400), ("NOP", 0x700, 0x000), ("CLR", 0x700, 0x100), ("DTB", 0x700, 0x200),
        ("DTF", 0x700, 0x300)] ∧
  opcodeRows.map (fun r => (List.range 2048).countP fun n => rowSelects r (BitVec.ofNat 11 n)) =
      [1024, 256, 256, 256, 256] ∧
  ∀ w : BeatWord,
    opcodeRows.filter (fun r => rowSelects r w) = [opcodeRowOf (decode w)] ∧
    (opcodeRowOf (decode w)).mnemonic = (decode w).mnemonic ∧
    (decode w = .rst ↔ 0x400 ≤ w.toNat) ∧
    (decode w = .nop ↔ w.toNat ≤ 0x0FF) ∧
    (decode w = .clr ↔ 0x100 ≤ w.toNat ∧ w.toNat ≤ 0x1FF) ∧
    (decode w = .dtb (fieldData w) ↔ 0x200 ≤ w.toNat ∧ w.toNat ≤ 0x2FF) ∧
    (decode w = .dtf (fieldData w) ↔ 0x300 ≤ w.toNat ∧ w.toNat ≤ 0x3FF)

/-- 30_encoding.md R55, R56, R58: every operation is decoded from its canonical word, with every operand value; and
encoding what a word decodes to gives that word with its ignored fields at 0, which decodes the same. -/
def Obligations.DecodeUndoesEncode : Prop :=
  (∀ i, decode (encode i) = i) ∧
  ∀ w, encode (decode w) = canonicalWord w ∧ decode (canonicalWord w) = decode w

/-- 30_encoding.md R58: the lines of a trace, the two hexadecimal digits of a byte, their canonical words, the words a decoder
accepts beside those, and comments. That the digits above 9 are written in capitals is the MODEL'S choice (log 8): R58
leaves the case of a digit open. -/
def Obligations.TraceTextIsReadBack : Prop :=
  (renderLine .rst = ['R', 'S', 'T'] ∧ renderLine .nop = ['N', 'O', 'P'] ∧ renderLine .clr = ['C', 'L', 'R'] ∧
    ∀ b, renderLine (.dtb b) = ['D', 'T', 'B', ' ', '0', 'x'] ++ hexByte b ∧
      renderLine (.dtf b) = ['D', 'T', 'F', ' ', '0', 'x'] ++ hexByte b) ∧
  (∀ b, hexByte b =
      [("0123456789ABCDEF".toList).getD (b.toNat / 16) ' ', ("0123456789ABCDEF".toList).getD (b.toNat % 16) ' ']) ∧
  (∀ b, parseDigits (hexByte b) = some b) ∧
  (encode .rst).toNat = 0x400 ∧ (encode .nop).toNat = 0x000 ∧ (encode .clr).toNat = 0x100 ∧
  (∀ b, (encode (.dtb b)).toNat = 0x200 + b.toNat ∧ (encode (.dtf b)).toNat = 0x300 + b.toNat) ∧
  (∀ w, decode w = decode (encode (decode w))) ∧
  (∀ i comment, parseLine (renderLine i) = some i ∧ parseLine (renderLine i ++ ';' :: comment) = some i) ∧
  ∀ is : List Instr, assemble (is.map renderLine) = some (is.map encode)

/-- 95_test_vectors.md section 3.8: words of each operation, written out from R50 and R55, with ignored bits set in some. -/
def Obligations.WrittenOutWordsDecode : Prop :=
  decode 0b10000000000#11 = .rst ∧ decode 0b11010110100#11 = .rst ∧ decode 0b11111111111#11 = .rst ∧
  decode 0b00000000000#11 = .nop ∧ decode 0b00011111111#11 = .nop ∧
  decode 0b00100000000#11 = .clr ∧ decode 0b00110100111#11 = .clr ∧
  decode 0b01010110100#11 = .dtb 0xB4#8 ∧ decode 0b01000000001#11 = .dtb 0x01#8 ∧
  decode 0b01100011111#11 = .dtf 0x1F#8 ∧ decode 0b01110000000#11 = .dtf 0x80#8

/-- 30_encoding.md R50, log 6: a number is read as a beat word exactly if it has 11 bits. The rejection is the model's. -/
def Obligations.NumbersOfElevenBitsDecode : Prop :=
  (∀ w : BeatWord, decodeNumber w.toNat = .ok (decode w)) ∧
  ∀ n, 2048 ≤ n → decodeNumber n = .error .notElevenBits

/-- 30_encoding.md R56: no word is illegal, and a field its operation ignores changes nothing about the beat, the state
after it included. -/
def Obligations.IgnoredFieldsHaveNoEffect : Prop :=
  ∀ (s : State) (rest : List BeatWord),
    (∀ w, ∃ u, step { s with pending := w :: rest } = .next u) ∧
    (∀ first data data',
      step { s with pending := packBeat false false first data :: rest } =
        step { s with pending := packBeat false false first data' :: rest }) ∧
    ∀ valid valid' first first' data data',
      step { s with pending := packBeat true valid first data :: rest } =
        step { s with pending := packBeat true valid' first' data' :: rest }

/-! ## The step -/

/-- 41_beat_operations.md R90, 60_exceptions.md R145: a step samples the next listed beat word and runs the operation it
decodes to, on the state without that word. With none listed the word is the host's free choice (logs 2, 3: the
model's form of an input). -/
def Obligations.StepRunsTheSampledBeat : Prop :=
  (∀ (s : State) (w : BeatWord) (rest : List BeatWord),
    step { s with pending := w :: rest } = exec (decode w) { s with pending := rest }) ∧
  ∀ s : State,
    step { s with pending := [] } =
      exec (decode (Config.hostBeat s.draws)) { s with pending := [], draws := s.draws + 1 }

/-- 41_beat_operations.md R90, 60_exceptions.md R130: the step "never faults, never refuses and is never stuck", and no
fault exists. -/
def Obligations.NoStepEverStops : Prop :=
  (∀ s, ∃ u, step s = .next u) ∧ (∀ i s, ∃ u, exec i s = .next u) ∧ IsEmpty Fault

/-- 41_beat_operations.md R90: the step function `(KS_ROM, SH_ROM) -> POS -> BW -> (POS', out)` by the bits of the word,
for every table pair; and one step of the machine is that function with this instance's tables. -/
def Obligations.StepIsTheStepFunctionOfTheSpec : Prop :=
  (∀ (t : Config.Tables) (p : Byte) (w : BeatWord),
    beat t p w =
      if w.getLsbD 10 then ⟨0#8, none⟩
      else if !w.getLsbD 9 && !w.getLsbD 8 then ⟨p, none⟩
      else if !w.getLsbD 9 && w.getLsbD 8 then ⟨0#8, none⟩
      else if w.getLsbD 9 && !w.getLsbD 8 then ⟨p + 1#8, some (detransformByte t p (w.extractLsb' 0 8))⟩
      else ⟨1#8, some (detransformByte t 0#8 (w.extractLsb' 0 8))⟩) ∧
  ∀ (s : State) (w : BeatWord) (rest : List BeatWord),
    step { s with pending := w :: rest } =
      .next
        { pos := (beat Config.tables s.pos w).pos
          pending := rest
          draws := s.draws
          out := (beat Config.tables s.pos w).out
          emitted := s.emitted ++ (beat Config.tables s.pos w).out.toList }

/-- Log 6: the instruction a table number decodes to is the one the very next step runs, on the unchanged state. The
presentation of a word is the model's. -/
def Obligations.PlacedWordRunsInTheNextStep : Prop :=
  ∀ (s : State) (nbits w : Nat) (i : Instr),
    decodeTableWord nbits w = some i → step (s.withFetchWord nbits w) = exec i s

/-! ## The five operations -/

/-- 41_beat_operations.md R91, 70_reset_and_hazards.md R150: `RST`. Its words, its effect from every state, and that
repeating it, or whatever `POS` held, makes no difference. -/
def Obligations.RstClearsThePosition : Prop :=
  (∀ w : BeatWord, decode w = .rst ↔ w &&& 0x400#11 = 0x400#11) ∧
  encode .rst = 0x400#11 ∧
  ∀ s : State,
    exec .rst s = .next { s with pos := 0#8, out := none } ∧
    (∃ u, exec .rst s = .next u ∧ exec .rst u = .next u) ∧
    ∀ p, exec .rst { s with pos := p } = exec .rst s

/-- 41_beat_operations.md R92: `NOP`. Its words, its effect from every state, and that `NOP` beats anywhere in a trace change
neither the bytes emitted nor the final `POS`. -/
def Obligations.NopChangesNothing : Prop :=
  (∀ w : BeatWord, decode w = .nop ↔ w &&& 0x700#11 = 0x000#11) ∧
  encode .nop = 0x000#11 ∧
  (∀ s : State, exec .nop s = .next { s with out := none }) ∧
  ∀ (t : Config.Tables) (p : Byte) (is js : List Instr),
    dropNops is = dropNops js → runTrace t p is = runTrace t p js

/-- 41_beat_operations.md R93: `CLR`. Its words, its effect from every state, that it has the effect of `RST`, that repeating
it makes no difference, that alone it is the empty payload, and that `CLR` and then `DTB b` is `DTF b`. -/
def Obligations.ClrStartsAPayload : Prop :=
  (∀ w : BeatWord, decode w = .clr ↔ w &&& 0x700#11 = 0x100#11) ∧
  encode .clr = 0x100#11 ∧
  (∀ s : State,
    exec .clr s = .next { s with pos := 0#8, out := none } ∧
    exec .clr s = exec .rst s ∧
    ∃ u, exec .clr s = .next u ∧ exec .clr u = .next u) ∧
  (∀ (t : Config.Tables) (p : Byte), runTrace t p [.clr] = (0#8, []) ∧ detransform t [] = []) ∧
  ∀ (b : Byte) (s : State), ∃ u, exec .clr s = .next u ∧ exec (.dtb b) u = exec (.dtf b) s

/-- 41_beat_operations.md R94: `DTB b`. Its words, and its effect from every state: the byte it emits, by the shift amount and
the keystream entry at index `POS`, and the position after it, which wraps from 255 to 0; for every table pair, and for
this instance's. -/
def Obligations.DtbEmitsAtThePositionAndAdvances : Prop :=
  (∀ w : BeatWord, decode w = .dtb (w.extractLsb' 0 8) ↔ w &&& 0x700#11 = 0x200#11) ∧
  (∀ b : Byte, (encode (.dtb b)).toNat = 0x200 + b.toNat) ∧
  (∀ (t : Config.Tables) (p b : Byte),
    beat t p (encode (.dtb b)) =
      ⟨BitVec.ofNat 8 ((p.toNat + 1) % 256), some (rotl8 b (readSh t p) ^^^ u8 (ksRom t p))⟩) ∧
  ∀ (b : Byte) (s : State),
    exec (.dtb b) s =
      .next
        { s with
          pos := BitVec.ofNat 8 ((s.pos.toNat + 1) % 256)
          out := some (rotl8 b (readSh Config.tables s.pos) ^^^ u8 (ksRom Config.tables s.pos))
          emitted :=
            s.emitted ++ [rotl8 b (readSh Config.tables s.pos) ^^^ u8 (ksRom Config.tables s.pos)] }

/-- 41_beat_operations.md R95: `DTF b`. Its words, its effect from every state, by the entries at index 0, that `POS` is
not read, and that it is `CLR` and then `DTB b`. -/
def Obligations.DtfEmitsAtZeroAndStartsAPayload : Prop :=
  (∀ w : BeatWord, decode w = .dtf (w.extractLsb' 0 8) ↔ w &&& 0x700#11 = 0x300#11) ∧
  (∀ b : Byte, (encode (.dtf b)).toNat = 0x300 + b.toNat) ∧
  (∀ (t : Config.Tables) (p b : Byte),
    beat t p (encode (.dtf b)) = ⟨1#8, some (rotl8 b (readSh t 0#8) ^^^ u8 (ksRom t 0#8))⟩) ∧
  ∀ (b : Byte) (s : State),
    exec (.dtf b) s =
      .next
        { s with
          pos := 1#8
          out := some (rotl8 b (readSh Config.tables 0#8) ^^^ u8 (ksRom Config.tables 0#8))
          emitted := s.emitted ++ [rotl8 b (readSh Config.tables 0#8) ^^^ u8 (ksRom Config.tables 0#8)] } ∧
    (∀ p, exec (.dtf b) { s with pos := p } = exec (.dtf b) s) ∧
    ∃ u, exec .clr s = .next u ∧ exec (.dtb b) u = exec (.dtf b) s

/-- 10_state.md R12: `POS` after each operation. -/
def Obligations.PositionAfterEachOperation : Prop :=
  ∀ s : State,
    (∃ u, exec .rst s = .next u ∧ u.pos = 0#8) ∧
    (∃ u, exec .nop s = .next u ∧ u.pos = s.pos) ∧
    (∃ u, exec .clr s = .next u ∧ u.pos = 0#8) ∧
    (∀ b, ∃ u, exec (.dtb b) s = .next u ∧ u.pos.toNat = (s.pos.toNat + 1) % 256) ∧
    ∀ b, ∃ u, exec (.dtf b) s = .next u ∧ u.pos = 1#8

/-- 20_memory.md R37, R38; 41_beat_operations.md R91 to R95: the frame. `RST`, `NOP` and `CLR` leave the output sequence, the
beats to come and the host's choices as they were; `DTB` and `DTF` leave the last two, and add one byte to the end of the
first. There is no byte-addressed memory, flag or other register to change. -/
def Obligations.OperationsChangeNothingElse : Prop :=
  (∀ i s, i = .rst ∨ i = .nop ∨ i = .clr →
    ∃ u, exec i s = .next u ∧ u.out = none ∧ u.emitted = s.emitted ∧ u.pending = s.pending ∧ u.draws = s.draws) ∧
  ∀ i s b, i = .dtb b ∨ i = .dtf b →
    ∃ u v, exec i s = .next u ∧ u.out = some v ∧ u.emitted = s.emitted ++ [v] ∧ u.pending = s.pending ∧
      u.draws = s.draws

/-- 60_exceptions.md R144, R135; 10_state.md R19: a beat with `rst = 0` and `valid = 1` emits one byte, in that beat, by its
index and data, where `first` takes effect before `valid`; any other beat emits nothing. -/
def Obligations.OneOutputForEachValidBeat : Prop :=
  ∀ (s : State) (w : BeatWord) (rest : List BeatWord),
    ∃ u, step { s with pending := w :: rest } = .next u ∧
      u.out =
        (if fieldRst w = false ∧ fieldValid w = true then
          some (detransformByte Config.tables (if fieldFirst w = true then 0#8 else s.pos) (fieldData w))
        else none) ∧
      outValid u = (!fieldRst w && fieldValid w) ∧
      u.emitted = s.emitted ++ u.out.toList

/-- 42_payload_laws.md R110: two beats with the same `POS` and the same word give the same output and the same `POS`, and two
runs of the same trace from the same `POS` emit the same bytes and end in the same `POS`, whatever else differs, the
earlier output included. -/
def Obligations.OutputDependsOnPositionAndWordsAlone : Prop :=
  (∀ (s s' : State) (w : BeatWord) (rest rest' : List BeatWord),
    ∃ u u', step { s with pending := w :: rest } = .next u ∧
      step { s' with pos := s.pos, pending := w :: rest' } = .next u' ∧ u.pos = u'.pos ∧ u.out = u'.out) ∧
  ∀ (s s' : State) (ws rest rest' : List BeatWord),
    ∃ (u u' : State) (bytes : List Byte),
      Host.Core.run Sys2Proof.core ws.length { s with pending := ws ++ rest } = .next u ∧
      Host.Core.run Sys2Proof.core ws.length { s' with pos := s.pos, pending := ws ++ rest' } = .next u' ∧
      u.pos = u'.pos ∧ u.emitted = s.emitted ++ bytes ∧ u'.emitted = s'.emitted ++ bytes

/-! ## Reset and power-up -/

/-- 10_state.md R21: `POS` and `out_valid` after reset, in the reset state and after an `RST` beat from any state. -/
def Obligations.ResetValues : Prop :=
  State.reset.pos = 0#8 ∧ outValid State.reset = false ∧
  ∀ s : State, ∃ u, exec .rst s = .next u ∧ u.pos = 0#8 ∧ outValid u = false

/-- 10_state.md R22, 70_reset_and_hazards.md R152: from a state with any value of `POS`, power-up's included, `RST`, `CLR` and
`DTF` lead where they lead from every other value, and `DTB` runs, at the index that value is. -/
def Obligations.PowerUpPositionIsOpen : Prop :=
  State.powerUp.pos = Config.posPowerup ∧
  ∀ (s : State) (p : Byte),
    exec .rst { s with pos := p } = exec .rst s ∧
    exec .clr { s with pos := p } = exec .clr s ∧
    (∀ b, exec (.dtf b) { s with pos := p } = exec (.dtf b) s) ∧
    ∀ b, ∃ u, exec (.dtb b) { s with pos := p } = .next u ∧ u.out = some (detransformByte Config.tables p b)

/-! ## The tables -/

/-- 60_exceptions.md R139: which table pairs are accepted, and what the accepted tables hold, an unsigned keystream byte as its
signed reading. -/
def Obligations.OnlyWellFormedTablesAreConfigured : Prop :=
  (∀ r : Config.RawTables,
    (∃ t, configure r = .ok t) ↔
      r.ks.length = 256 ∧ r.sh.length = 256 ∧ (∀ v ∈ r.ks, -128 ≤ v ∧ v ≤ 255) ∧ ∀ n ∈ r.sh, n ≤ 7) ∧
  ∀ (r : Config.RawTables) (t : Config.Tables), configure r = .ok t →
    ∀ k : Index,
      (readSh t k).toNat = r.sh.getD k.toNat 0 ∧
      ksRom t k = if r.ks.getD k.toNat 0 ≤ 127 then r.ks.getD k.toNat 0 else r.ks.getD k.toNat 0 - 256

/-- 10_state.md R15, R16; 20_memory.md R31, R32; 40_transform_datapath.md R75: a lookup reads both tables at the same index;
every index has entries, in their ranges; the keystream byte is the stored pattern. -/
def Obligations.LookupReadsBothTablesAtOneIndex : Prop :=
  (∀ (t : Config.Tables) (k : Index),
    lookup t k = (readSh t k, u8 (ksRom t k)) ∧ u8 (ksRom t k) = readKs t k ∧
      (readSh t k).toNat ≤ 7 ∧ -128 ≤ ksRom t k ∧ ksRom t k ≤ 127) ∧
  ∀ i, (tableIndex i).toNat = i % 256

/-! ## The datapath -/

/-- 40_transform_datapath.md R70, R71: `ROTL8` by its arithmetic, bit by bit, and at its corners. -/
def Obligations.RotateLeftMovesEveryBit : Prop :=
  (∀ b, rotl8 b 0#3 = b) ∧
  (∀ b s, s ≠ 0#3 → (rotl8 b s).toNat = b.toNat * 2 ^ s.toNat % 256 + b.toNat / 2 ^ (8 - s.toNat)) ∧
  (∀ b s j, j < 8 → (rotl8 b s).getLsbD ((j + s.toNat) % 8) = b.getLsbD j) ∧
  (∀ b s m, m < 8 → (rotl8 b s).getLsbD m = b.getLsbD ((m + 8 - s.toNat) % 8)) ∧
  (∀ s, rotl8 0x00#8 s = 0x00#8 ∧ rotl8 0xFF#8 s = 0xFF#8) ∧
  (∀ b, rotl8 b 4#3 = b.extractLsb' 0 4 ++ b.extractLsb' 4 4) ∧
  (∀ s, s ≠ 0#3 → ((∀ b, rotl8 b s = rotr8 b s) ↔ s = 4#3)) ∧
  rotl8 0x80#8 1#3 = 0x01#8 ∧ rotl8 0x01#8 7#3 = 0x80#8 ∧ rotl8 0xB4#8 3#3 = 0xA5#8 ∧
  (∀ b s, (List.range 8).countP (rotl8 b s).getLsbD = (List.range 8).countP b.getLsbD) ∧
  ∀ b s u, rotl8 (rotl8 b s) u = rotl8 b (BitVec.ofNat 3 ((s.toNat + u.toNat) % 8))

/-- 40_transform_datapath.md R72: `ROTR8`, and that it and `ROTL8` undo each other. -/
def Obligations.RotateRightUndoesRotateLeft : Prop :=
  (∀ b s, rotr8 b s = rotl8 b (BitVec.ofNat 3 ((8 - s.toNat) % 8))) ∧
  (∀ b s j, j < 8 → (rotr8 b s).getLsbD ((j + 8 - s.toNat) % 8) = b.getLsbD j) ∧
  rotr8 0xB4#8 3#3 = 0x96#8 ∧ rotl8 0xB4#8 3#3 = 0xA5#8 ∧
  ∀ b s, rotr8 (rotl8 b s) s = b ∧ rotl8 (rotr8 b s) s = b

/-- 40_transform_datapath.md R73: `U8` by its cases, its inverse, its sign bit, and a wider two's-complement value cut to 8
bits. -/
def Obligations.UnsignedReadingOfASignedByte : Prop :=
  (∀ v : Int, -128 ≤ v → v ≤ 127 →
    ((u8 v).toNat : Int) = (if 0 ≤ v then v else v + 256) ∧
    s8 (u8 v) = v ∧ ((u8 v).getLsbD 7 = true ↔ v < 0) ∧
    ∀ n, 8 ≤ n → (BitVec.ofInt n v).setWidth 8 = u8 v) ∧
  (∀ u : Byte, s8 u = (if u.toNat < 128 then (u.toNat : Int) else (u.toNat : Int) - 256) ∧
    -128 ≤ s8 u ∧ s8 u ≤ 127 ∧ u8 (s8 u) = u) ∧
  u8 0 = 0x00#8 ∧ u8 127 = 0x7F#8 ∧ u8 (-128) = 0x80#8 ∧ u8 (-1) = 0xFF#8 ∧ u8 (-91) = 0xA5#8

/-- 40_transform_datapath.md R76, R77; 42_payload_laws.md R113: rotate, then XOR with the keystream byte, which is not
rotated; no rotation where the shift amount is 0; the corner bytes; a bijection for each index; and what it gives a
payload. -/
def Obligations.ByteIsRotatedThenMasked : Prop :=
  (∀ (t : Config.Tables) (k : Index) (b : Byte),
    detransformByte t k b = rotl8 b (readSh t k) ^^^ u8 (ksRom t k)) ∧
  (∀ b, rotl8 b 0#3 = b) ∧
  (∀ (t : Config.Tables) (k : Index), readSh t k = 0#3 → ∀ b, detransformByte t k b = b ^^^ u8 (ksRom t k)) ∧
  (∀ (t : Config.Tables) (k : Index),
    detransformByte t k 0x00#8 = u8 (ksRom t k) ∧ detransformByte t k 0xFF#8 = ~~~(u8 (ksRom t k)) ∧
      Function.Bijective (detransformByte t k)) ∧
  ∀ (t : Config.Tables) (raw : List Byte) (i : Nat) (b : Byte), raw[i]? = some b →
    (detransform t raw)[i]? = some (detransformByte t (BitVec.ofNat 8 (i % 256)) b)

/-- 40_transform_datapath.md R80: `ROTL8` is the source's formula, cut to 8 bits, for every shift amount, with a right shift
by 8 giving 0. -/
def Obligations.RotateLeftIsTheSourceFormula : Prop :=
  (∀ (b : Byte) (s : Shift),
    (rotl8 b s).toNat = ((b.toNat >>> (8 - s.toNat)) ||| (b.toNat <<< s.toNat)) % 256) ∧
  (∀ b : Byte, b.toNat >>> 8 = 0) ∧
  ∀ (b : Byte) (s : Shift), s ≠ 0#3 → rotl8 b s = b >>> (8 - s.toNat) ||| b <<< s.toNat

/-- 42_payload_laws.md R117: for every index the byte function is a bijection, and so is `detransform` on the sequences of
each length. -/
def Obligations.DetransformIsABijection : Prop :=
  (∀ (t : Config.Tables) (k : Index), Function.Bijective (detransformByte t k)) ∧
  ∀ (t : Config.Tables) (n : Nat) (out : List Byte), out.length = n →
    ∃! raw : List Byte, raw.length = n ∧ detransform t raw = out

/-- 42_payload_laws.md R118: bytes of zeros and of ones, and a payload of zeros, which emits the keystream with period 256. -/
def Obligations.ZeroBytesEmitTheKeystream : Prop :=
  (∀ (t : Config.Tables) (k : Index),
    detransformByte t k 0x00#8 = u8 (ksRom t k) ∧ detransformByte t k 0xFF#8 = ~~~(u8 (ksRom t k))) ∧
  ∀ (t : Config.Tables) (n : Nat),
    detransform t (List.replicate n 0x00#8) =
      (List.range n).map fun i => u8 (ksRom t (BitVec.ofNat 8 (i % 256)))

/-- 42_payload_laws.md R119: affinity over XOR, and the shift amount read out of a byte with one 1 bit. -/
def Obligations.ByteFunctionIsAffine : Prop :=
  (∀ (a b : Byte) (s : Shift), rotl8 (a ^^^ b) s = rotl8 a s ^^^ rotl8 b s) ∧
  ∀ (t : Config.Tables) (k : Index),
    (∀ a b, detransformByte t k (a ^^^ b) =
      detransformByte t k a ^^^ detransformByte t k b ^^^ u8 (ksRom t k)) ∧
    (∀ b, detransformByte t k b ^^^ detransformByte t k 0x00#8 = rotl8 b (readSh t k)) ∧
    detransformByte t k 0x01#8 ^^^ detransformByte t k 0x00#8 = 1#8 <<< (readSh t k).toNat

/-! ## Payloads -/

/-- 41_beat_operations.md R100: output byte `i` is the byte function at `i mod 256` of input byte `i`, and the output has the
input's length. -/
def Obligations.DetransformIsByteByByte : Prop :=
  ∀ (t : Config.Tables) (raw : List Byte),
    (detransform t raw).length = raw.length ∧
    (∀ i b, raw[i]? = some b →
      (detransform t raw)[i]? = some (detransformByte t (BitVec.ofNat 8 (i % 256)) b)) ∧
    detransform t [] = []

/-- 41_beat_operations.md R101: `detransform_from`, that `detransform` is the one from 0, and that it is what a run of `DTB`
beats from `POS = p` emits. -/
def Obligations.DtbRunEmitsDetransformFrom : Prop :=
  ∀ (t : Config.Tables) (p : Byte) (raw : List Byte),
    (∀ i b, raw[i]? = some b →
      (detransformFrom t p raw)[i]? =
        some (detransformByte t (BitVec.ofNat 8 ((p.toNat + i) % 256)) b)) ∧
    (detransformFrom t p raw).length = raw.length ∧
    detransform t raw = detransformFrom t 0#8 raw ∧
    runTrace t p (raw.map .dtb) =
      (BitVec.ofNat 8 ((p.toNat + raw.length) % 256), detransformFrom t p raw)

/-- 42_payload_laws.md R111: bytes that are equal and stand at positions equal modulo 256 give equal output. -/
def Obligations.OutputHasPeriod256 : Prop :=
  ∀ (t : Config.Tables) (raw : List Byte) (i j : Nat),
    i % 256 = j % 256 → raw[i]? = raw[j]? → (detransform t raw)[i]? = (detransform t raw)[j]?

/-- 42_payload_laws.md R112: `detransform` keeps the length, and a trace emits as many bytes as it has words with `rst = 0`
and `valid = 1`. -/
def Obligations.LengthIsPreserved : Prop :=
  (∀ (t : Config.Tables) (raw : List Byte), (detransform t raw).length = raw.length) ∧
  (∀ t : Config.Tables, detransform t [] = []) ∧
  (∀ (t : Config.Tables) (p : Byte),
    (beat t p (encode .rst)).out = none ∧ (beat t p (encode .nop)).out = none ∧
      (beat t p (encode .clr)).out = none) ∧
  ∀ (t : Config.Tables) (p : Byte) (ws : List BeatWord),
    (runTrace t p (ws.map decode)).2.length = ws.countP fun w => !fieldRst w && fieldValid w

/-- 42_payload_laws.md R114: an output byte depends on the input byte at its position and no other, and changing one input
byte changes that output byte and no other. -/
def Obligations.TransformIsMemoryless : Prop :=
  (∀ (t : Config.Tables) (raw raw' : List Byte) (i : Nat),
    raw.length = raw'.length → raw[i]? = raw'[i]? → (detransform t raw)[i]? = (detransform t raw')[i]?) ∧
  ∀ (t : Config.Tables) (raw : List Byte) (i : Nat) (v : Byte),
    detransform t (raw.set i v) = (detransform t raw).set i (detransformByte t (BitVec.ofNat 8 (i % 256)) v) ∧
    ∀ b, raw[i]? = some b → b ≠ v → (detransform t (raw.set i v))[i]? ≠ (detransform t raw)[i]?

/-- 42_payload_laws.md R115, R116: the forward function, and that each of it and `detransform` undoes the other. -/
def Obligations.DetransformUndoesForward : Prop :=
  (∀ (t : Config.Tables) (k : Index) (x : Byte),
    forwardByte t k x = rotr8 (x ^^^ u8 (ksRom t k)) (readSh t k) ∧
      detransformByte t k (forwardByte t k x) = x ∧ forwardByte t k (detransformByte t k x) = x) ∧
  (∀ (t : Config.Tables) (x : List Byte),
    (forward t x).length = x.length ∧
    ∀ i b, x[i]? = some b → (forward t x)[i]? = some (forwardByte t (BitVec.ofNat 8 (i % 256)) b)) ∧
  ∀ (t : Config.Tables) (x : List Byte), detransform t (forward t x) = x ∧ forward t (detransform t x) = x

/-- 42_payload_laws.md R120: concatenation. -/
def Obligations.DetransformOfAConcatenation : Prop :=
  ∀ (t : Config.Tables) (a b : List Byte),
    detransform t (a ++ b) = detransform t a ++ detransformFrom t (BitVec.ofNat 8 (a.length % 256)) b ∧
    (∀ p : Byte,
      detransformFrom t p (a ++ b) =
        detransformFrom t p a ++ detransformFrom t (BitVec.ofNat 8 ((p.toNat + a.length) % 256)) b) ∧
    (a.length % 256 = 0 → detransform t (a ++ b) = detransform t a ++ detransform t b)

/-- 42_payload_laws.md R121, 20_memory.md R44: whichever of `n` workers each position is given to, the results placed at their
positions are the output. -/
def Obligations.LanesGiveTheSameOutput : Prop :=
  ∀ (t : Config.Tables) (raw : List Byte) (n : Nat) (owner : Nat → Nat), (∀ i < raw.length, owner i < n) →
    placeResults raw.length ((List.range n).flatMap fun w => laneResults t raw fun i => owner i == w) =
      (detransform t raw).map some

/-! ## Traces and runs -/

/-- 30_encoding.md R59: a trace that is the expansion of `PAYLOAD`, with `NOP` lines anywhere in it, emits `detransform` of
the bytes and leaves `POS = N mod 256`, whatever `POS` was. -/
def Obligations.PayloadTraceEmitsDetransform : Prop :=
  (payload [] = [.clr] ∧ ∀ b bs, payload (b :: bs) = .dtf b :: bs.map .dtb) ∧
  ∀ (t : Config.Tables) (p : Byte) (raw : List Byte) (is : List Instr), dropNops is = payload raw →
    runTrace t p is = (BitVec.ofNat 8 (raw.length % 256), detransform t raw)

/-- 30_encoding.md R60: the three expansions. -/
def Obligations.PayloadExpansionsAgree : Prop :=
  (∀ raw, payloadClr raw = .clr :: raw.map .dtb ∧ payloadRst raw = .rst :: raw.map .dtb) ∧
  ∀ (t : Config.Tables) (p : Byte) (raw : List Byte), raw ≠ [] →
    runTrace t p (payloadClr raw) = runTrace t p (payload raw) ∧
    runTrace t p (payloadRst raw) = runTrace t p (payload raw)

/-- 41_beat_operations.md R99 (read as log 12 says): in a trace of payloads one after the other, each begun in its own way, by
`DTF`, by `CLR` or by `RST`, empty ones among them, after bytes of a payload in progress, and with `NOP` beats anywhere,
the payloads begun are those payloads and the bytes before them are those bytes. -/
def Obligations.PayloadsOfATraceAreFound : Prop :=
  ∀ (inProgress : List Byte) (parts : List (PayloadStart × List Byte)) (is : List Instr),
    dropNops is = inProgress.map .dtb ++ parts.flatMap (fun x => payloadBegun x.1 x.2) →
    splitPayloads is = (inProgress, parts.map Prod.snd)

/-- 42_payload_laws.md R122, 41_beat_operations.md R99: stream equals function. In any trace, from any `POS`, each payload
begun in it emits `detransform` of its bytes, the payload in progress goes on at its position, the bytes come in the
order of the payloads, `NOP` beats change nothing, and the final `POS` is the length of the payload begun last, modulo
256. -/
def Obligations.StreamEqualsFunction : Prop :=
  ∀ (t : Config.Tables) (p : Byte) (is : List Instr),
    runPayloads t p is =
      (detransformFrom t p (splitPayloads is).1, (splitPayloads is).2.map (detransform t)) ∧
    (runTrace t p is).2 = (runPayloads t p is).1 ++ (runPayloads t p is).2.flatten ∧
    (runTrace t p is).1 =
      BitVec.ofNat 8
        ((match (splitPayloads is).2.getLast? with
          | none => p.toNat + (splitPayloads is).1.length
          | some last => last.length) % 256) ∧
    runTrace t p (dropNops is) = runTrace t p is ∧ splitPayloads (dropNops is) = splitPayloads is

/-- 42_payload_laws.md R122, 60_exceptions.md R145: the same of the machine. From any state, a run over as many steps as
there are words in a listed trace emits the detransform of every payload in it, after what was emitted before, and
leaves the rest of the list. -/
def Obligations.MachineRunEmitsDetransform : Prop :=
  ∀ (s : State) (ws rest : List BeatWord),
    ∃ u : State,
      Host.Core.run Sys2Proof.core ws.length { s with pending := ws ++ rest } = .next u ∧
      u.pending = rest ∧ u.draws = s.draws ∧
      u.emitted =
        s.emitted ++ detransformFrom Config.tables s.pos (splitPayloads (ws.map decode)).1 ++
          ((splitPayloads (ws.map decode)).2.map (detransform Config.tables)).flatten ∧
      u.pos = BitVec.ofNat 8 (ghostPos s.pos.toNat (ws.map decode))

/-- 42_payload_laws.md R123: after a beat that goes back to position 0 nothing depends on what came before it, and a trace
acts on what follows only through `POS`. -/
def Obligations.PayloadIsIndependentOfHistory : Prop :=
  (∀ (t : Config.Tables) (p p' : Byte) (i : Instr) (is : List Instr),
    (i = .rst ∨ i = .clr ∨ ∃ b, i = .dtf b) → runTrace t p (i :: is) = runTrace t p' (i :: is)) ∧
  (∀ (t : Config.Tables) (p : Byte) (is js : List Instr),
    runTrace t p (is ++ js) =
      ((runTrace t (runTrace t p is).1 js).1,
        (runTrace t p is).2 ++ (runTrace t (runTrace t p is).1 js).2)) ∧
  ∀ (t : Config.Tables) (p p' : Byte) (is : List Instr),
    (runPayloads t p is).2 = (runPayloads t p' is).2

/-- 70_reset_and_hazards.md R154: a second payload sent without a start is processed from where the first left off. -/
def Obligations.MissingPayloadStartShiftsTheIndex : Prop :=
  ∀ (t : Config.Tables) (p : Byte) (a b : List Byte),
    (runTrace t p (payload a ++ b.map .dtb)).2 =
      detransform t a ++ detransformFrom t (BitVec.ofNat 8 (a.length % 256)) b

/-- 10_state.md R24: `POS` is the position modulo 256, kept by every beat, whatever the beat word. -/
def Obligations.PositionIsTheGhostModulo256 : Prop :=
  (∀ (s : State) (g : Nat), s.pos = BitVec.ofNat 8 (g % 256) →
    ∃ u, step s = .next u ∧ u.pos = BitVec.ofNat 8 (ghostPos g [decode (sampleBeat s).1] % 256)) ∧
  (∀ (t : Config.Tables) (g : Nat) (is : List Instr),
    (runTrace t (BitVec.ofNat 8 (g % 256)) is).1 = BitVec.ofNat 8 (ghostPos g is % 256)) ∧
  ∀ (g : Nat) (is : List Instr),
    ghostPos g is =
      match (splitPayloads is).2.getLast? with
      | none => g + (splitPayloads is).1.length
      | some last => last.length

/-- 41_beat_operations.md R96: which position comes next depends on the operations of a trace and not on the data or the
tables. -/
def Obligations.PositionIgnoresData : Prop :=
  ∀ (t t' : Config.Tables) (p : Byte) (is is' : List Instr),
    is.map Instr.mnemonic = is'.map Instr.mnemonic → (runTrace t p is).1 = (runTrace t' p is').1

/-- 60_exceptions.md R143: if the host keeps its duties, every byte it presents belongs to a payload, in order, and the run
emits the detransform of those payloads, from any `POS`. -/
def Obligations.HostDutiesGiveDetransform : Prop :=
  ∀ (t : Config.Tables) (p : Byte) (ws : List BeatWord), StartsEveryPayload ws → NoByteInReset ws →
    (splitPayloads (ws.map decode)).2.flatten = presentedBytes ws ∧
    (runTrace t p (ws.map decode)).2 = ((splitPayloads (ws.map decode)).2.map (detransform t)).flatten

/-- 20_memory.md R40, 70_reset_and_hazards.md R160, 60_exceptions.md R145: a run of any length never stops, never takes back a
byte, and emits at most one byte a beat. -/
def Obligations.RunsOnlyAddOutput : Prop :=
  ∀ (n : Nat) (s : State),
    ∃ u : State, Host.Core.run Sys2Proof.core n s = .next u ∧ s.emitted <+: u.emitted ∧
      u.emitted.length ≤ s.emitted.length + n

/-- 41_beat_operations.md R90, 10_state.md R19: the invariant of every step. A state that follows a history steps to one that
follows the history with the sampled beat added, so that nothing but `POS`, the tables and the beats themselves ever
decides what is emitted. -/
def Obligations.EveryStepFollowsItsHistory : Prop :=
  ∀ (p : Byte) (hist : List Instr) (s u : State), Follows p hist s → step s = .next u →
    Follows p (hist ++ [decode (sampleBeat s).1]) u

/-- 10_state.md R21, R22: the states after reset and after power-up follow the empty history. That nothing has been emitted
in them is the model's choice (log 4). -/
def Obligations.ResetFollowsTheEmptyHistory : Prop :=
  Follows 0#8 [] State.reset ∧ Follows Config.posPowerup [] State.powerUp
end

