-- ==== Sys2Proof/Laws/Datapath.lean ====
section
/-! SUPPORT. One spec lemma for each function of the datapath (40_transform_datapath.md). -/

namespace Sys2Proof.Machine

/-! ## Rotations -/

/-- `ROTL8` by zero, the mandatory branch (R77). -/
@[simp] theorem rotl8_zero (b : Byte) : rotl8 b 0#3 = b := by simp [rotl8]

/-- `ROTL8` by a nonzero amount is the shift-or formula (R80). -/
theorem rotl8_of_ne_zero (b : Byte) {s : Shift} (h : s ≠ 0#3) :
    rotl8 b s = (b <<< s.toNat) ||| (b >>> (8 - s.toNat)) := by
  unfold rotl8; exact if_neg h

/-- `ROTL8` is the library's rotation, so its lemmas apply. -/
theorem rotl8_eq_rotateLeft (b : Byte) (s : Shift) : rotl8 b s = b.rotateLeft s.toNat := by
  have hs : s.toNat < 8 := s.isLt
  by_cases h : s = 0#3
  · subst h; rw [rotl8_zero]; simp [BitVec.rotateLeft_def, BitVec.ushiftRight_eq_zero]
  · rw [rotl8_of_ne_zero b h, BitVec.rotateLeft_def, Nat.mod_eq_of_lt hs]

/-- Bit `m` of a rotated byte, for `m` in 0 to 7 (R71). -/
theorem getLsbD_rotl8 (b : Byte) (s : Shift) (m : Nat) (hm : m < 8) :
    (rotl8 b s).getLsbD m = b.getLsbD ((m + 8 - s.toNat) % 8) := by
  have hs : s.toNat < 8 := s.isLt
  rw [rotl8_eq_rotateLeft, BitVec.getLsbD_rotateLeft, Nat.mod_eq_of_lt hs]
  by_cases h : m < s.toNat
  · simp only [h, decide_true, cond_true]; congr 1; omega
  · simp only [h, hm, decide_false, decide_true, cond_false, Bool.true_and]; congr 1; omega

/-- `ROTR8` is the library's right rotation (R72). -/
theorem rotr8_eq_rotateRight (b : Byte) (s : Shift) : rotr8 b s = b.rotateRight s.toNat := by
  have hs : s.toNat < 8 := s.isLt
  have hm : (8 - s.toNat) % 8 < 8 := Nat.mod_lt _ (by decide)
  unfold rotr8
  apply BitVec.eq_of_getLsbD_eq
  intro m hmw
  rw [getLsbD_rotl8 _ _ _ hmw, BitVec.getLsbD_rotateRight, BitVec.toNat_ofNat, Nat.mod_eq_of_lt (a := (8 - s.toNat) % 8) hm,
    Nat.mod_eq_of_lt hs]
  by_cases h : m < 8 - s.toNat
  · simp only [h, decide_true, cond_true]; congr 1; omega
  · simp only [h, hmw, decide_false, decide_true, cond_false, Bool.true_and]; congr 1; omega

/-! ## Signed and unsigned bytes -/

/-- `U8` is the two's-complement pattern of any integer, cut to 8 bits (R73). -/
theorem u8_eq_ofInt (v : Int) : u8 v = BitVec.ofInt 8 v := by
  unfold u8; split
  · rfl
  · apply BitVec.eq_of_toNat_eq; simp only [BitVec.toNat_ofInt]; congr 1; omega

/-- `S8` is the two's-complement reading (R73). -/
theorem s8_eq_toInt (u : Byte) : s8 u = u.toInt := by
  have := u.isLt
  unfold s8; rw [BitVec.toInt_eq_toNat_cond]; split <;> split <;> omega

/-- `U8` undoes `S8` (R73). -/
@[simp] theorem u8_s8 (u : Byte) : u8 (s8 u) = u := by
  rw [u8_eq_ofInt, s8_eq_toInt, BitVec.ofInt_toInt]

/-- The table index of byte `i` (R75). -/
@[simp] theorem tableIndex_toNat (i : Nat) : (tableIndex i).toNat = i % 256 := by simp [tableIndex]

/-! ## Lookup and the byte function -/

/-- The keystream byte a lookup answers is the stored pattern (10_state.md R15). -/
@[simp] theorem lookup_eq (t : Config.Tables) (k : Index) : lookup t k = (t.sh k, t.ks k) := by
  simp [lookup, readSh, ksRom, readKs]

/-- The byte function over the stored patterns (R76). -/
theorem detransformByte_eq (t : Config.Tables) (k : Index) (b : Byte) :
    detransformByte t k b = rotl8 b (t.sh k) ^^^ t.ks k := by simp [detransformByte]

end Sys2Proof.Machine
end

