-- ==== Sys2Proof/Laws/PerInstr.lean ====
section
/-! SUPPORT. Statements made for each operation. -/

namespace Sys2Proof.Laws

/-- The canonical beat word of `i` selects the operation-map row of `i`, and that row bears its mnemonic
(30_encoding.md R55, R58). -/
def RowMatch.Statement (i : Instr) : Prop :=
  encode i &&& (opcodeRowOf i).mask = (opcodeRowOf i).value ∧ (opcodeRowOf i).mnemonic = i.mnemonic

theorem RowMatch.rst : RowMatch.Statement .rst := ⟨by decide, rfl⟩

theorem RowMatch.nop : RowMatch.Statement .nop := ⟨by decide, rfl⟩

theorem RowMatch.clr : RowMatch.Statement .clr := ⟨by decide, rfl⟩

/-- The control bits of a packed beat word, whatever its data. -/
theorem packBeat_and_controls (rst valid first : Bool) (data : Byte) :
    packBeat rst valid first data &&& 0x700#11 = packBeat rst valid first 0#8 := by
  ext j hj
  simp only [packBeat, BitVec.getElem_and, BitVec.getElem_append]
  revert rst valid first
  interval_cases j <;> simp

theorem RowMatch.dtb (b : Byte) : RowMatch.Statement (.dtb b) := ⟨by
  simpa only [encode, opcodeRowOf, rowDtb, packBeat_and_controls] using (by decide), rfl⟩

theorem RowMatch.dtf (b : Byte) : RowMatch.Statement (.dtf b) := ⟨by
  simpa only [encode, opcodeRowOf, rowDtf, packBeat_and_controls] using (by decide), rfl⟩

end Sys2Proof.Laws
end

