-- ==== Sys2Proof/Laws/State.lean ====
section
/-! SUPPORT. The small lemmas of the state's updates: each field after each update, and what sampling and presenting a beat
word do, each said once. -/

namespace Sys2Proof.Machine

/-! ## `commit`, field by field -/

@[simp] theorem commit_pos (s : State) (r : BeatResult) : (commit s r).pos = r.pos := rfl

@[simp] theorem commit_out (s : State) (r : BeatResult) : (commit s r).out = r.out := rfl

@[simp] theorem commit_emitted (s : State) (r : BeatResult) : (commit s r).emitted = s.emitted ++ r.out.toList := rfl

@[simp] theorem commit_pending (s : State) (r : BeatResult) : (commit s r).pending = s.pending := rfl

@[simp] theorem commit_draws (s : State) (r : BeatResult) : (commit s r).draws = s.draws := rfl

@[simp] theorem outValid_commit (s : State) (r : BeatResult) : outValid (commit s r) = r.out.isSome := rfl

/-! ## `sampleBeat` -/

/-- A listed beat word is the one sampled, and leaves the list. -/
theorem sampleBeat_of_cons {s : State} {w : BeatWord} {rest : List BeatWord} (h : s.pending = w :: rest) :
    sampleBeat s = (w, { s with pending := rest }) := by
  simp [sampleBeat, h]

/-- With no beat word listed, the one sampled is the host's free choice, and only `draws` advances. -/
theorem sampleBeat_of_nil {s : State} (h : s.pending = []) :
    sampleBeat s = (Config.hostBeat s.draws, { s with draws := s.draws + 1 }) := by
  simp [sampleBeat, h]

@[simp] theorem sampleBeat_pos (s : State) : (sampleBeat s).2.pos = s.pos := by
  unfold sampleBeat; split <;> rfl

@[simp] theorem sampleBeat_out (s : State) : (sampleBeat s).2.out = s.out := by
  unfold sampleBeat; split <;> rfl

@[simp] theorem sampleBeat_emitted (s : State) : (sampleBeat s).2.emitted = s.emitted := by
  unfold sampleBeat; split <;> rfl

@[simp] theorem sampleBeat_pending (s : State) : (sampleBeat s).2.pending = s.pending.tail := by
  unfold sampleBeat; split <;> simp_all

/-! ## `placeBeat` -/

/-- Presenting an 11-bit number changes `pending` alone. -/
theorem placeBeat_of_lt {s : State} {w : Nat} (h : w < 2048) :
    placeBeat s w = { s with pending := BitVec.ofNat 11 w :: s.pending } := by
  simp [placeBeat, h]

/-- A number that is no beat word is not presented. -/
theorem placeBeat_of_ge {s : State} {w : Nat} (h : 2048 ≤ w) : placeBeat s w = s := by
  simp [placeBeat, Nat.not_lt.mpr h]

/-! ## The states after reset and after power-up -/

@[simp] theorem reset_pos : State.reset.pos = 0#8 := rfl

@[simp] theorem reset_out : State.reset.out = none := rfl

@[simp] theorem powerUp_pos : State.powerUp.pos = Config.posPowerup := rfl

@[simp] theorem powerUp_out : State.powerUp.out = none := rfl

end Sys2Proof.Machine
end

