-- ==== Sys2Proof/Laws/Step.lean ====
section
/-! SUPPORT. What a step can do, said once: `exec` and `step` as one `commit` of one `BeatResult`; the results of the five
operations; runs and the payloads of a trace, one operation at a time. -/

namespace Sys2Proof.Machine

/-! ## `exec` and `step` -/

/-- Every operation answers a next state, and does nothing but commit its result. -/
theorem exec_eq_commit (i : Instr) (s : State) :
    exec i s = .next (commit s (instrBeat Config.tables s.pos i)) := by
  cases i <;> rfl

/-- Every step answers a next state: the block's own step under this instance's tables. -/
theorem step_eq_stepWith (s : State) : step s = .next (stepWith Config.tables s) := by
  rw [step, exec_eq_commit]; rfl

@[simp] theorem stepWith_pos (t : Config.Tables) (s : State) :
    (stepWith t s).pos = (beat t s.pos (sampleBeat s).1).pos := by simp [stepWith]

@[simp] theorem stepWith_out (t : Config.Tables) (s : State) :
    (stepWith t s).out = (beat t s.pos (sampleBeat s).1).out := by simp [stepWith]

@[simp] theorem stepWith_emitted (t : Config.Tables) (s : State) :
    (stepWith t s).emitted = s.emitted ++ (beat t s.pos (sampleBeat s).1).out.toList := by simp [stepWith]

@[simp] theorem stepWith_pending (t : Config.Tables) (s : State) : (stepWith t s).pending = s.pending.tail := by
  simp [stepWith]

/-! ## The results of the operations -/

@[simp] theorem instrBeat_rst (t : Config.Tables) (p : Byte) : instrBeat t p .rst = ⟨0#8, none⟩ := rfl

@[simp] theorem instrBeat_nop (t : Config.Tables) (p : Byte) : instrBeat t p .nop = ⟨p, none⟩ := rfl

@[simp] theorem instrBeat_clr (t : Config.Tables) (p : Byte) : instrBeat t p .clr = ⟨0#8, none⟩ := rfl

@[simp] theorem instrBeat_dtb (t : Config.Tables) (p b : Byte) :
    instrBeat t p (.dtb b) = ⟨p + 1#8, some (detransformByte t p b)⟩ := rfl

@[simp] theorem instrBeat_dtf (t : Config.Tables) (p b : Byte) :
    instrBeat t p (.dtf b) = ⟨1#8, some (detransformByte t 0#8 b)⟩ := rfl

/-! ## Runs -/

@[simp] theorem runTrace_nil (t : Config.Tables) (p : Byte) : runTrace t p [] = (p, []) := rfl

theorem runTrace_cons (t : Config.Tables) (p : Byte) (i : Instr) (is : List Instr) :
    runTrace t p (i :: is) =
      ((runTrace t (instrBeat t p i).pos is).1,
        (instrBeat t p i).out.toList ++ (runTrace t (instrBeat t p i).pos is).2) := rfl

/-! ## The payloads of a trace -/

@[simp] theorem splitPayloads_nil : splitPayloads [] = ([], []) := rfl

@[simp] theorem splitPayloads_rst (is : List Instr) :
    splitPayloads (.rst :: is) = ([], (splitPayloads is).1 :: (splitPayloads is).2) := rfl

@[simp] theorem splitPayloads_nop (is : List Instr) : splitPayloads (.nop :: is) = splitPayloads is := rfl

@[simp] theorem splitPayloads_clr (is : List Instr) :
    splitPayloads (.clr :: is) = ([], (splitPayloads is).1 :: (splitPayloads is).2) := rfl

@[simp] theorem splitPayloads_dtb (b : Byte) (is : List Instr) :
    splitPayloads (.dtb b :: is) = (b :: (splitPayloads is).1, (splitPayloads is).2) := rfl

@[simp] theorem splitPayloads_dtf (b : Byte) (is : List Instr) :
    splitPayloads (.dtf b :: is) = ([], (b :: (splitPayloads is).1) :: (splitPayloads is).2) := rfl

@[simp] theorem payloadBegun_byDtf (raw : List Byte) : payloadBegun .byDtf raw = payload raw := rfl

@[simp] theorem payloadBegun_byClr (raw : List Byte) : payloadBegun .byClr raw = .clr :: raw.map .dtb := rfl

@[simp] theorem payloadBegun_byRst (raw : List Byte) : payloadBegun .byRst raw = .rst :: raw.map .dtb := rfl

/-! ## The payload functions, one byte at a time -/

@[simp] theorem detransformFrom_nil (t : Config.Tables) (p : Byte) : detransformFrom t p [] = [] := rfl

/-- A payload function started at `p` handles its first byte at `p` and the rest at `p + 1` (41_beat_operations.md R101). -/
theorem detransformFrom_cons (t : Config.Tables) (p b : Byte) (bs : List Byte) :
    detransformFrom t p (b :: bs) = detransformByte t p b :: detransformFrom t (p + 1#8) bs := by
  have h0 : tableIndex p.toNat = p := by simp [tableIndex]
  have h1 : ∀ i, tableIndex (p.toNat + (i + 1)) = tableIndex ((p + 1#8).toNat + i) := fun i => by
    apply BitVec.eq_of_toNat_eq
    have := p.isLt
    simp only [tableIndex, BitVec.toNat_ofNat, BitVec.toNat_add]
    omega
  simp only [detransformFrom, List.mapIdx_cons, Nat.add_zero, h0, h1]

end Sys2Proof.Machine
end

