-- ==== Sys2Proof/Laws/TraceText.lean ====
section
/-! SUPPORT. The small lemmas of the written form of a trace. -/

namespace Sys2Proof.Machine

/-- A nibble is read back from its digit. -/
@[simp] theorem hexValue_hexChar (n : BitVec 4) : hexValue (hexChar n) = some n := by revert n; decide

/-- No digit begins a comment. -/
theorem hexChar_ne_semicolon (n : BitVec 4) : hexChar n ≠ ';' := by revert n; decide

/-- No digit is a blank, so the words of a line are not split inside a byte. -/
theorem hexChar_ne_blank (n : BitVec 4) : hexChar n ≠ ' ' := by revert n; decide

end Sys2Proof.Machine
end

