-- ==== Sys2Proof/Tests/Slice0.lean ====
section
/-! SUPPORT. Small tests. Expected values are the spec's own vectors (95_test_vectors.md) or its encodings written out, and
witnesses that the statements' hypotheses can be met. -/

namespace Sys2Proof.Tests

open Sys2Proof.Machine

/-! ## Well-formedness: one ill-formed term for each check (60_exceptions.md R139) -/

/-- A table pair that passes every check, with entries at the ends of their ranges. -/
def goodTables : Config.RawTables := ⟨-128 :: 127 :: 255 :: List.replicate 253 0, 7 :: List.replicate 255 0⟩

theorem test_good_tables_are_accepted : goodTables.wf = true := by decide +kernel

theorem test_short_keystream_is_refused :
    ({ goodTables with ks := goodTables.ks.tail } : Config.RawTables).ksLengthOk = false ∧
      ({ goodTables with ks := goodTables.ks.tail } : Config.RawTables).wf = false := by decide +kernel

theorem test_long_shift_table_is_refused :
    ({ goodTables with sh := 0 :: goodTables.sh } : Config.RawTables).shLengthOk = false ∧
      ({ goodTables with sh := 0 :: goodTables.sh } : Config.RawTables).wf = false := by decide +kernel

theorem test_keystream_entry_out_of_range_is_refused :
    ({ goodTables with ks := -129 :: goodTables.ks.tail } : Config.RawTables).ksRangeOk = false ∧
      ({ goodTables with ks := 256 :: goodTables.ks.tail } : Config.RawTables).wf = false := by decide +kernel

theorem test_shift_amount_out_of_range_is_refused :
    ({ goodTables with sh := 8 :: goodTables.sh.tail } : Config.RawTables).shRangeOk = false ∧
      ({ goodTables with sh := 8 :: goodTables.sh.tail } : Config.RawTables).wf = false := by decide +kernel

theorem test_configure_names_the_reason :
    (match configure { goodTables with sh := 8 :: goodTables.sh.tail } with
      | .ok _ => none
      | .error e => some e) = some .shiftRange := by decide +kernel

/-- An entry written as the unsigned byte 255 is the entry -1 (R139). -/
theorem test_unsigned_keystream_entry_is_its_signed_reading : ksRom (tablesOf goodTables) 2#8 = -1 := by decide

/-! ## Decoding: words written out from 30_encoding.md R50 and R55, `{rst, valid, first, data}` -/

theorem test_decode_rst : decode 0b1_0_0_00000000#11 = .rst ∧ decode 0b1_1_0_10110100#11 = .rst := by decide

theorem test_decode_nop : decode 0b0_0_0_00000000#11 = .nop ∧ decode 0b0_0_0_11111111#11 = .nop := by decide

theorem test_decode_clr : decode 0b0_0_1_00000000#11 = .clr ∧ decode 0b0_0_1_10100111#11 = .clr := by decide

theorem test_decode_dtb : decode 0b0_1_0_10110100#11 = .dtb 0xB4#8 := by decide

theorem test_decode_dtf : decode 0b0_1_1_00011111#11 = .dtf 0x1F#8 := by decide

theorem test_table_word_of_more_than_eleven_bits :
    decodeTableWord 16 0x2B4 = some (.dtb 0xB4#8) ∧ decodeTableWord 16 0x800 = none := by decide

/-! ## The fixture tables T of 95_test_vectors.md section 2 -/

/-- `SH_T[k] = k mod 8`, `U8(KS_T[k]) = (0xA5 + 3 k) mod 256`. The spec's own test data, not the block's tables. -/
def fixtureT : Config.Tables := ⟨fun k => 0xA5#8 + 3#8 * k, fun k => k.setWidth 3⟩

theorem test_fixture_keystream :
    ksRom fixtureT 73#8 = -128 ∧ ksRom fixtureT 30#8 = -1 ∧ ksRom fixtureT 201#8 = 0 ∧ ksRom fixtureT 158#8 = 127 := by
  decide

/-! ## The datapath -/

/-- Section 3.1, the row of 0xB4. -/
theorem test_rotl8_row :
    [0#3, 1#3, 2#3, 3#3, 4#3, 5#3, 6#3, 7#3].map (rotl8 0xB4#8) =
      [0xB4#8, 0x69#8, 0xD2#8, 0xA5#8, 0x4B#8, 0x96#8, 0x2D#8, 0x5A#8] := by decide

/-- Section 3.2, the direction of the rotation (conflict C1). -/
theorem test_direction :
    detransformByte fixtureT 1#8 0x8B#8 = 0xBF#8 ∧ detransformByte fixtureT 2#8 0x08#8 = 0x8B#8 ∧
      detransformByte fixtureT 3#8 0xB4#8 = 0x0B#8 ∧ detransformByte fixtureT 5#8 0x81#8 = 0x84#8 ∧
      rotr8 0x8B#8 1#3 = 0xC5#8 := by decide

/-- Section 3.3, the source's dedicated zero-shift test, on bytes with bit 7 set. -/
theorem test_zero_shift :
    rotl8 0xB4#8 0#3 = 0xB4#8 ∧ detransformByte fixtureT 8#8 0xB4#8 = 0x09#8 ∧
      detransformByte fixtureT 128#8 0x5A#8 = 0x7F#8 := by decide

/-- Section 3.4. -/
theorem test_u8 :
    [0, 1, 127, -128, -127, -91, -1].map u8 = [0x00#8, 0x01#8, 0x7F#8, 0x80#8, 0x81#8, 0xA5#8, 0xFF#8] := by decide

/-- Section 3.7: `F(x)` for `x = 3C 3F 78 6D 6C`, and back. -/
theorem test_forward :
    forward fixtureT [0x3C#8, 0x3F#8, 0x78#8, 0x6D#8, 0x6C#8] = [0x99#8, 0xCB#8, 0xF4#8, 0x78#8, 0xDD#8] ∧
      detransform fixtureT [0x99#8, 0xCB#8, 0xF4#8, 0x78#8, 0xDD#8] = [0x3C#8, 0x3F#8, 0x78#8, 0x6D#8, 0x6C#8] := by
  decide

/-- Rule R100's worked example. -/
theorem test_detransform : detransform fixtureT [0x1F#8, 0x8B#8, 0x08#8] = [0xBA#8, 0xBF#8, 0x8B#8] := by decide

/-! ## One beat of each operation (section 3.8): a word with ignored bits set, or the corner of the operation -/

theorem test_rst_drops_the_byte : beat fixtureT 0x7F#8 0x6B4#11 = ⟨0x00#8, none⟩ := by decide

theorem test_rst_keeps_what_was_emitted :
    (match exec .rst { State.reset with pos := 0x7F#8, out := some 1#8, emitted := [1#8] } with
      | .next u => some (u.pos, u.out, u.emitted)
      | _ => none) = some (0x00#8, none, [1#8]) := by decide

theorem test_nop_ignores_data : beat fixtureT 0x05#8 0x0FF#11 = ⟨0x05#8, none⟩ := by decide

theorem test_clr_ignores_data : beat fixtureT 0xC8#8 0x1A7#11 = ⟨0x00#8, none⟩ := by decide

theorem test_dtb_general : beat fixtureT 0x03#8 0x2B4#11 = ⟨0x04#8, some 0x0B#8⟩ := by decide

theorem test_dtb_wraps : beat fixtureT 0xFF#8 0x2FF#11 = ⟨0x00#8, some 0x5D#8⟩ := by decide

theorem test_dtf_does_not_read_pos : beat fixtureT 0x9C#8 0x31F#11 = ⟨0x01#8, some 0xBA#8⟩ := by decide

theorem test_dtf_after_dtf : beat fixtureT 0x01#8 0x300#11 = ⟨0x01#8, some 0xA5#8⟩ := by decide

/-- The wrap of `POS` in the machine itself. -/
theorem test_step_dtb_wraps :
    (match step (State.withFetchWord { State.reset with pos := 0xFF#8 } 16 0x2FF) with
      | .next u => some (u.pos, u.pending, u.out.isSome)
      | _ => none) = some (0x00#8, [], true) := by decide

/-! ## The written form of a trace (30_encoding.md R58, R59) -/

theorem test_trace_line :
    parseLine ['D', 'T', 'B', ' ', '0', 'x', 'B', '4', ' ', ';', ' ', 'R', 'S', 'T'] = some (.dtb 0xB4#8) := by decide

/-- Digits of both kinds, the more significant first, and letters of either case. -/
theorem test_hex_digits :
    hexByte 0x9A#8 = ['9', 'A'] ∧ hexByte 0xF0#8 = ['F', '0'] ∧ parseDigits ['a', 'F'] = some 0xAF#8 ∧
      parseDigits ['0', 'G'] = none ∧ parseDigits ['/', ':'] = none := by decide

/-- Program P7's line with its first two bytes. -/
theorem test_payload_line :
    assemble [['P', 'A', 'Y', 'L', 'O', 'A', 'D', ' ', '0', '0', ' ', '7', 'F']] = some [0x300#11, 0x27F#11] := by
  decide

/-! ## Witnesses: the hypotheses of the statements can be met -/

theorem witness_numbers : 2048 ≤ 2048 := by decide

theorem witness_placed_word : decodeTableWord 16 0x3FF = some (.dtf 0xFF#8) := by decide

theorem witness_drop_nops : dropNops [.nop, .dtf 1#8, .nop] = dropNops [.dtf 1#8] := by decide

theorem witness_frame : (Instr.clr = .rst ∨ Instr.clr = .nop ∨ Instr.clr = .clr) ∧
    (Instr.dtb 0xFF#8 = .dtb 0xFF#8 ∨ Instr.dtb 0xFF#8 = .dtf 0xFF#8) := by decide

theorem witness_configured : configure goodTables = .ok (tablesOf goodTables) := by
  have h : goodTables.ksLengthOk = true ∧ goodTables.shLengthOk = true ∧ goodTables.ksRangeOk = true ∧
      goodTables.shRangeOk = true := by decide +kernel
  simp [configure, h]

theorem witness_shift_amount : (7#3 ≠ 0#3 ∧ 4#3 ≠ 0#3) ∧ 7 < 8 := by decide

theorem witness_signed_byte : (-128 : Int) ≤ -128 ∧ (-128 : Int) ≤ 127 ∧ (-128 : Int) ≤ 127 ∧ (127 : Int) ≤ 127 ∧ 8 ≤ 8 := by decide

theorem witness_zero_shift : readSh fixtureT 0#8 = 0#3 ∧ readSh fixtureT 248#8 = 0#3 := by decide

theorem witness_output_length : ([0x5A#8] : List Byte).length = 1 := by decide

theorem witness_byte_at : ([0x5A#8, 0x5B#8] : List Byte)[1]? = some 0x5B#8 ∧ 0x5B#8 ≠ 0x5A#8 := by decide

theorem witness_period :
    0 % 256 = 256 % 256 ∧ (List.replicate 257 0x5A#8)[0]? = (List.replicate 257 0x5A#8)[256]? := by decide +kernel

theorem witness_same_byte_elsewhere_different :
    ([1#8, 2#8] : List Byte).length = ([1#8, 3#8] : List Byte).length ∧
      ([1#8, 2#8] : List Byte)[0]? = ([1#8, 3#8] : List Byte)[0]? := by decide

theorem witness_whole_periods : (List.replicate 256 0x5A#8).length % 256 = 0 := by decide +kernel

theorem witness_lanes : ∀ i < ([1#8, 2#8, 3#8] : List Byte).length, (fun i => i % 2) i < 2 := by decide

theorem witness_payload_with_nops :
    dropNops [.nop, .dtf 1#8, .nop, .dtb 2#8] = payload [1#8, 2#8] ∧ dropNops [.clr, .nop] = payload [] := by decide

/-- A payload in progress, then one payload of each kind of start, an empty one among them. -/
theorem witness_mixed_payloads :
    dropNops [.dtb 9#8, .nop, .dtf 1#8, .rst, .nop, .dtb 2#8, .clr] =
      ([9#8] : List Byte).map .dtb ++
        ([(.byDtf, [1#8]), (.byRst, [2#8]), (.byClr, [])] : List (PayloadStart × List Byte)).flatMap
          fun x => payloadBegun x.1 x.2 := by decide

theorem witness_nonempty_payload : ([1#8] : List Byte) ≠ [] := by decide

theorem witness_payload_start : (Instr.dtf 1#8 = .rst ∨ Instr.dtf 1#8 = .clr ∨ ∃ b, Instr.dtf 1#8 = .dtf b) :=
  .inr (.inr ⟨_, rfl⟩)

theorem witness_ghost : ({ State.reset with pos := 255#8 } : State).pos = BitVec.ofNat 8 (511 % 256) := by decide

theorem witness_same_operations :
    ([.dtf 1#8, .nop, .dtb 2#8] : List Instr).map Instr.mnemonic =
      ([.dtf 3#8, .nop, .dtb 4#8] : List Instr).map Instr.mnemonic := by decide

theorem witness_host_duties :
    StartsEveryPayload [0x100#11, 0x2FF#11, 0x000#11, 0x31F#11] ∧
      NoByteInReset [0x100#11, 0x2FF#11, 0x000#11, 0x31F#11] := by
  constructor
  · unfold StartsEveryPayload; decide
  · unfold NoByteInReset; decide

theorem witness_follows :
    Follows 0#8 [] (State.withFetchWord State.reset 16 0x31F) ∧
      step (State.withFetchWord State.reset 16 0x31F) =
        .next (stepWith Config.tables (State.withFetchWord State.reset 16 0x31F)) :=
  ⟨⟨rfl, rfl, rfl⟩, step_eq_stepWith _⟩

end Sys2Proof.Tests
end

section
/-! PROOF. The rules of 10_state.md on `POS`: how each operation moves it (R12), its values at reset and at power-up (R21,
R22), and the unbounded ghost position that it holds modulo 256 (R24). -/

namespace Sys2Proof.Machine

/-! ## The states after reset and after power-up -/

@[simp] theorem reset_emitted : State.reset.emitted = [] := rfl

@[simp] theorem powerUp_emitted : State.powerUp.emitted = [] := rfl

/-- To follow the empty history is to stand at the position it began from, with nothing emitted and no output. -/
theorem follows_nil_iff (p : Byte) (s : State) :
    Follows p [] s ↔ s.pos = p ∧ s.emitted = [] ∧ s.out = none := Iff.rfl

/-- Settles O53: both states stand at the position their history begins from, and neither has emitted a byte. -/
theorem resetFollowsTheEmptyHistory : Obligations.ResetFollowsTheEmptyHistory := by
  unfold Obligations.ResetFollowsTheEmptyHistory
  simp only [follows_nil_iff]
  exact ⟨⟨reset_pos, reset_emitted, reset_out⟩, powerUp_pos, powerUp_emitted, powerUp_out⟩

/-- Settles O21: the reset state holds both values, and the result of `RST` has both from every state. -/
theorem resetValues : Obligations.ResetValues := by
  refine ⟨reset_pos, ?_, fun s => ⟨_, exec_eq_commit .rst s, ?_, ?_⟩⟩
  · rw [outValid, reset_out, Option.isSome_none]
  · rw [commit_pos, instrBeat_rst]
  · rw [outValid_commit, instrBeat_rst, Option.isSome_none]

/-! ## `POS` and the operations -/

/-- Settles O17: the next state is `commit` of the operation's result, and takes its `POS` from it. -/
theorem positionAfterEachOperation : Obligations.PositionAfterEachOperation := by
  intro s
  refine ⟨?_, ?_, ?_, fun b => ?_, fun b => ?_⟩
  · exact ⟨_, exec_eq_commit .rst s, by simp⟩
  · exact ⟨_, exec_eq_commit .nop s, by simp⟩
  · exact ⟨_, exec_eq_commit .clr s, by simp⟩
  · exact ⟨_, exec_eq_commit (.dtb b) s, BitVec.toNat_add s.pos 1#8⟩
  · exact ⟨_, exec_eq_commit (.dtf b) s, by simp⟩

/-- An operation whose result does not read `POS` answers the same next state from every value of `POS`. -/
theorem exec_set_pos {i : Instr} (h : ∀ p q, instrBeat Config.tables p i = instrBeat Config.tables q i)
    (s : State) (p : Byte) : exec i { s with pos := p } = exec i s := by
  rw [exec_eq_commit, exec_eq_commit, h p s.pos]; rfl

/-- Settles O22: `RST`, `CLR` and `DTF` do not read `POS`, and `DTB` uses it as its index, whatever it is. -/
theorem powerUpPositionIsOpen : Obligations.PowerUpPositionIsOpen := by
  refine ⟨powerUp_pos, fun s p => ⟨?_, ?_, fun b => ?_, fun b => ?_⟩⟩
  · exact exec_set_pos (fun _ _ => rfl) s p
  · exact exec_set_pos (fun _ _ => rfl) s p
  · exact exec_set_pos (fun _ _ => rfl) s p
  · exact ⟨_, exec_eq_commit (.dtb b) _, by simp⟩

/-! ## The ghost position -/

@[simp] theorem ghostPos_nil (g : Nat) : ghostPos g [] = g := rfl

@[simp] theorem ghostPos_rst (g : Nat) (is : List Instr) : ghostPos g (.rst :: is) = ghostPos 0 is := rfl

@[simp] theorem ghostPos_nop (g : Nat) (is : List Instr) : ghostPos g (.nop :: is) = ghostPos g is := rfl

@[simp] theorem ghostPos_clr (g : Nat) (is : List Instr) : ghostPos g (.clr :: is) = ghostPos 0 is := rfl

@[simp] theorem ghostPos_dtb (g : Nat) (b : Byte) (is : List Instr) :
    ghostPos g (.dtb b :: is) = ghostPos (g + 1) is := rfl

@[simp] theorem ghostPos_dtf (g : Nat) (b : Byte) (is : List Instr) : ghostPos g (.dtf b :: is) = ghostPos 1 is := rfl

/-- The ghost position of a trace advances one operation at a time. -/
theorem ghostPos_cons (g : Nat) (i : Instr) (is : List Instr) :
    ghostPos g (i :: is) = ghostPos (ghostPos g [i]) is := by
  cases i <;> simp

/-- One operation keeps `POS` equal to the ghost position modulo 256: the key step of R24. -/
theorem instrBeat_pos_ghostPos (t : Config.Tables) (g : Nat) (i : Instr) :
    (instrBeat t (BitVec.ofNat 8 (g % 256)) i).pos = BitVec.ofNat 8 (ghostPos g [i] % 256) := by
  cases i with
  | dtb b =>
    -- The byte addition wraps exactly where the reduction modulo 256 does.
    apply BitVec.eq_of_toNat_eq
    simp
  | _ => simp

/-- A whole trace keeps it. -/
theorem runTrace_pos_ghostPos (t : Config.Tables) (g : Nat) (is : List Instr) :
    (runTrace t (BitVec.ofNat 8 (g % 256)) is).1 = BitVec.ofNat 8 (ghostPos g is % 256) := by
  induction is generalizing g with
  | nil => rfl
  | cons i is ih => rw [runTrace_cons, instrBeat_pos_ghostPos, ih, ← ghostPos_cons]

/-- The block's own step keeps it, for the operation that the sampled beat word selects. -/
theorem stepWith_pos_ghostPos (t : Config.Tables) {s : State} {g : Nat} (h : s.pos = BitVec.ofNat 8 (g % 256)) :
    (stepWith t s).pos = BitVec.ofNat 8 (ghostPos g [decode (sampleBeat s).1] % 256) := by
  rw [stepWith_pos, h, beat, instrBeat_pos_ghostPos]

/-- The length of the last payload when one more is put in front: that of the new one only if there was none. -/
theorem lastLength_cons (n : Nat) (raw : List Byte) (raws : List (List Byte)) :
    (raw :: raws).getLast?.elim n List.length = raws.getLast?.elim raw.length List.length := by
  rw [List.getLast?_cons]; cases raws.getLast? <;> rfl

/-- The ghost position is the number of bytes since the last payload start, or, if the trace starts no payload, the old
one and the number of bytes of the trace. -/
theorem ghostPos_eq_bytes_since_start (g : Nat) (is : List Instr) :
    ghostPos g is = (splitPayloads is).2.getLast?.elim (g + (splitPayloads is).1.length) List.length := by
  induction is generalizing g with
  | nil => simp
  | cons i is ih =>
    cases i with
    | nop => simp [ih]
    | rst | clr => simp [ih, lastLength_cons]
    | dtb b => simp [ih, Nat.add_assoc, Nat.add_comm 1]
    | dtf b => simp [ih, lastLength_cons, Nat.add_comm 1]

/-- Settles O48: each operation keeps `POS` at the ghost position modulo 256, so steps and traces do; the ghost position
counts the bytes of the payload in progress. -/
theorem positionIsTheGhostModulo256 : Obligations.PositionIsTheGhostModulo256 := by
  refine ⟨fun s g h => ?_, runTrace_pos_ghostPos, fun g is => ?_⟩
  · exact ⟨_, step_eq_stepWith s, stepWith_pos_ghostPos Config.tables h⟩
  · rw [ghostPos_eq_bytes_since_start]
    cases (splitPayloads is).2.getLast? <;> rfl

end Sys2Proof.Machine
end

section
/-! PROOF. The rules of 20_memory.md on what a beat may change: the frame of the five operations (R37, R38), and the output
sequence of a run, which only grows and by at most one byte a beat (R40). -/

namespace Sys2Proof.Machine

/-! ## The frame of an operation -/

/-- The frame of every operation: the output port takes the operation's output, that output joins the output sequence,
and the beats to come and the host's choices stay. -/
theorem exec_frame (i : Instr) (s : State) :
    ∃ u, exec i s = .next u ∧ u.out = (instrBeat Config.tables s.pos i).out ∧
      u.emitted = s.emitted ++ (instrBeat Config.tables s.pos i).out.toList ∧
      u.pending = s.pending ∧ u.draws = s.draws :=
  ⟨_, exec_eq_commit i s, commit_out s _, commit_emitted s _, commit_pending s _, commit_draws s _⟩

/-- An operation without an output leaves the output sequence as it was. -/
theorem exec_frame_of_out_none {i : Instr} {s : State} (h : (instrBeat Config.tables s.pos i).out = none) :
    ∃ u, exec i s = .next u ∧ u.out = none ∧ u.emitted = s.emitted ∧ u.pending = s.pending ∧ u.draws = s.draws := by
  simpa [h] using exec_frame i s

/-- An operation with the output `v` adds `v` to the end of the output sequence. -/
theorem exec_frame_of_out_some {i : Instr} {s : State} {v : Byte}
    (h : (instrBeat Config.tables s.pos i).out = some v) :
    ∃ u, exec i s = .next u ∧ u.out = some v ∧ u.emitted = s.emitted ++ [v] ∧ u.pending = s.pending ∧
      u.draws = s.draws := by
  simpa [h] using exec_frame i s

/-- Settles O18: `RST`, `NOP` and `CLR` have no output, `DTB` and `DTF` have one byte, and the frame follows from that. -/
theorem operationsChangeNothingElse : Obligations.OperationsChangeNothingElse := by
  refine ⟨fun i s hi => ?_, fun i s b hi => ?_⟩
  · obtain rfl | rfl | rfl := hi
    · exact exec_frame_of_out_none (by rw [instrBeat_rst])
    · exact exec_frame_of_out_none (by rw [instrBeat_nop])
    · exact exec_frame_of_out_none (by rw [instrBeat_clr])
  · rw [exists_comm]
    obtain rfl | rfl := hi
    · exact ⟨_, exec_frame_of_out_some (by rw [instrBeat_dtb])⟩
    · exact ⟨_, exec_frame_of_out_some (by rw [instrBeat_dtf])⟩

/-! ## Runs of the machine -/

/-- A run of the machine takes one beat of the block, and then the others. -/
theorem run_core_succ (n : Nat) (s : State) :
    Host.Core.run core (n + 1) s = Host.Core.run core n (stepWith Config.tables s) := by
  have hstep : core.step s = .next (stepWith Config.tables s) := step_eq_stepWith s
  simp only [Host.Core.run, hstep]

/-- A run of the machine never stops: `n` steps are `n` beats of the block, one after the other. -/
theorem run_core_eq_iterate (n : Nat) (s : State) :
    Host.Core.run core n s = .next ((stepWith Config.tables)^[n] s) := by
  induction n generalizing s with
  | zero => rfl
  | succ n ih => rw [run_core_succ, ih, Function.iterate_succ_apply]

/-- A beat takes back no byte. -/
theorem emitted_prefix_stepWith (t : Config.Tables) (s : State) : s.emitted <+: (stepWith t s).emitted := by
  rw [stepWith_emitted]; exact List.prefix_append _ _

/-- A beat emits at most one byte. -/
theorem length_emitted_stepWith_le (t : Config.Tables) (s : State) :
    (stepWith t s).emitted.length ≤ s.emitted.length + 1 := by
  rw [stepWith_emitted, List.length_append]
  exact Nat.add_le_add_left Option.length_toList_le _

/-- Beats take back no byte. -/
theorem emitted_prefix_iterate_stepWith (t : Config.Tables) (n : Nat) (s : State) :
    s.emitted <+: ((stepWith t)^[n] s).emitted := by
  induction n generalizing s with
  | zero => exact List.prefix_rfl
  | succ n ih => exact (emitted_prefix_stepWith t s).trans (ih _)

/-- `n` beats emit at most `n` bytes. -/
theorem length_emitted_iterate_stepWith_le (t : Config.Tables) (n : Nat) (s : State) :
    ((stepWith t)^[n] s).emitted.length ≤ s.emitted.length + n := by
  induction n generalizing s with
  | zero => exact Nat.le_refl _
  | succ n ih =>
    rw [Function.iterate_succ_apply]
    calc ((stepWith t)^[n] (stepWith t s)).emitted.length
        ≤ (stepWith t s).emitted.length + n := ih _
      _ ≤ s.emitted.length + 1 + n := Nat.add_le_add_right (length_emitted_stepWith_le t s) n
      _ = s.emitted.length + (n + 1) := by omega

/-- Settles O51: a run is a number of beats, and each of them only adds to the output sequence, one byte at most. -/
theorem runsOnlyAddOutput : Obligations.RunsOnlyAddOutput := fun n s =>
  ⟨_, run_core_eq_iterate n s, emitted_prefix_iterate_stepWith Config.tables n s,
    length_emitted_iterate_stepWith_le Config.tables n s⟩

end Sys2Proof.Machine
end

section
/-! PROOF. The beat word and its decoding (30_encoding.md R50, R55, R56): a beat word as its four fields, the five forms
that the decoder tells apart, the encoder, and the rows of the operation map as runs of consecutive words. -/

namespace Sys2Proof.Machine

/-! ## The four fields (R50) -/

@[simp] theorem fieldRst_packBeat (rst valid first : Bool) (data : Byte) :
    fieldRst (packBeat rst valid first data) = rst := by
  simp only [fieldRst, packBeat, BitVec.getLsbD_append]; simp

@[simp] theorem fieldValid_packBeat (rst valid first : Bool) (data : Byte) :
    fieldValid (packBeat rst valid first data) = valid := by
  simp only [fieldValid, packBeat, BitVec.getLsbD_append]; simp

@[simp] theorem fieldFirst_packBeat (rst valid first : Bool) (data : Byte) :
    fieldFirst (packBeat rst valid first data) = first := by
  simp only [fieldFirst, packBeat, BitVec.getLsbD_append]; simp

@[simp] theorem fieldData_packBeat (rst valid first : Bool) (data : Byte) :
    fieldData (packBeat rst valid first data) = data :=
  BitVec.extractLsb'_append_eq_right

/-- Every beat word is the one packed from its fields. -/
theorem packBeat_fields (w : BeatWord) : packBeat (fieldRst w) (fieldValid w) (fieldFirst w) (fieldData w) = w := by
  apply BitVec.eq_of_getLsbD_eq
  intro j hj
  simp only [packBeat, fieldRst, fieldValid, fieldFirst, fieldData, BitVec.getLsbD_append, BitVec.getLsbD_ofBool,
    BitVec.getLsbD_extractLsb']
  interval_cases j <;> simp

/-- The number of a concatenation: the high part counts the multiples of `2 ^ n`. -/
theorem toNat_append_eq_add {m n : Nat} (x : BitVec m) (y : BitVec n) :
    (x ++ y).toNat = x.toNat * 2 ^ n + y.toNat := by
  rw [BitVec.toNat_append, ← Nat.shiftLeft_add_eq_or_of_lt y.isLt, Nat.shiftLeft_eq]

/-- The number of a packed beat word. -/
theorem packBeat_toNat (rst valid first : Bool) (data : Byte) :
    (packBeat rst valid first data).toNat =
      rst.toNat * 1024 + valid.toNat * 512 + first.toNat * 256 + data.toNat := by
  simp only [packBeat, toNat_append_eq_add, BitVec.toNat_ofBool]
  omega

/-- Settles O1: the number of a packed word, and packing and taking apart undo each other. -/
theorem beatWordIsItsFourFields : Obligations.BeatWordIsItsFourFields := by
  refine ⟨fun rst valid first data => ⟨packBeat_toNat rst valid first data, ?_⟩, packBeat_fields⟩
  exact ⟨fieldRst_packBeat .., fieldValid_packBeat .., fieldFirst_packBeat .., fieldData_packBeat ..⟩

/-! ## The decoder on its five forms (R55) -/

@[simp] theorem decode_packBeat_rst (valid first : Bool) (data : Byte) :
    decode (packBeat true valid first data) = .rst := by simp [decode]

@[simp] theorem decode_packBeat_nop (data : Byte) : decode (packBeat false false false data) = .nop := by
  simp [decode]

@[simp] theorem decode_packBeat_clr (data : Byte) : decode (packBeat false false true data) = .clr := by
  simp [decode]

@[simp] theorem decode_packBeat_dtb (data : Byte) : decode (packBeat false true false data) = .dtb data := by
  simp [decode]

@[simp] theorem decode_packBeat_dtf (data : Byte) : decode (packBeat false true true data) = .dtf data := by
  simp [decode]

/-- Every beat word has one of the five forms that R55 tells apart, so a fact about all words needs five cases. -/
theorem beatWord_cases {motive : BeatWord → Prop}
    (rst : ∀ valid first data, motive (packBeat true valid first data))
    (nop : ∀ data, motive (packBeat false false false data))
    (clr : ∀ data, motive (packBeat false false true data))
    (dtb : ∀ data, motive (packBeat false true false data))
    (dtf : ∀ data, motive (packBeat false true true data)) (w : BeatWord) : motive w := by
  rw [← packBeat_fields w]
  match fieldRst w, fieldValid w, fieldFirst w with
  | true, _, _ => exact rst ..
  | false, false, false => exact nop _
  | false, false, true => exact clr _
  | false, true, false => exact dtb _
  | false, true, true => exact dtf _

/-- Settles O5: each word is a literal, and the decoder evaluates on it. -/
theorem writtenOutWordsDecode : Obligations.WrittenOutWordsDecode := by
  unfold Obligations.WrittenOutWordsDecode; decide

/-! ## The encoder and the canonical words (R56, R58) -/

/-- The decoder answers the operation whose canonical word it is given. -/
@[simp] theorem decode_encode (i : Instr) : decode (encode i) = i := by
  cases i <;> simp [encode]

/-- The bit `rst` of a packed beat word, whatever the other fields. -/
theorem packBeat_and_rst (rst valid first : Bool) (data : Byte) :
    packBeat rst valid first data &&& 0x400#11 = packBeat rst false false 0#8 := by
  rw [show 0x400#11 = 0x700#11 &&& 0x400#11 by decide, ← BitVec.and_assoc, Laws.packBeat_and_controls]
  revert rst valid first; decide

/-- The canonical word of a reset beat keeps `rst` alone. -/
@[simp] theorem canonicalWord_packBeat_rst (valid first : Bool) (data : Byte) :
    canonicalWord (packBeat true valid first data) = packBeat true false false 0#8 := by
  simp [canonicalWord, packBeat_and_rst]

/-- The canonical word of a beat with a payload byte is the word itself. -/
@[simp] theorem canonicalWord_packBeat_valid (first : Bool) (data : Byte) :
    canonicalWord (packBeat false true first data) = packBeat false true first data := by
  simp [canonicalWord]

/-- The canonical word of a beat with neither reset nor a payload byte keeps `first` alone. -/
@[simp] theorem canonicalWord_packBeat_idle (first : Bool) (data : Byte) :
    canonicalWord (packBeat false false first data) = packBeat false false first 0#8 := by
  simp [canonicalWord, Laws.packBeat_and_controls]

/-- Encoding what a word decodes to puts its ignored fields to 0. -/
theorem encode_decode (w : BeatWord) : encode (decode w) = canonicalWord w := by
  cases w using beatWord_cases <;> simp [encode]

/-- Settles O3: `decode` undoes `encode`, and `encode` after `decode` is the canonical word, which thus decodes the same. -/
theorem decodeUndoesEncode : Obligations.DecodeUndoesEncode :=
  ⟨decode_encode, fun w => ⟨encode_decode w, by rw [← encode_decode, decode_encode]⟩⟩

/-! ## The words of an operation (R55) -/

theorem decode_eq_rst_iff (w : BeatWord) : decode w = .rst ↔ 0x400 ≤ w.toNat := by
  cases w using beatWord_cases <;> simp [packBeat_toNat] <;> omega

theorem decode_eq_nop_iff (w : BeatWord) : decode w = .nop ↔ w.toNat ≤ 0x0FF := by
  cases w using beatWord_cases <;> simp [packBeat_toNat] <;> omega

theorem decode_eq_clr_iff (w : BeatWord) : decode w = .clr ↔ 0x100 ≤ w.toNat ∧ w.toNat ≤ 0x1FF := by
  cases w using beatWord_cases <;> simp [packBeat_toNat] <;> omega

theorem decode_eq_dtb_iff (w : BeatWord) :
    decode w = .dtb (fieldData w) ↔ 0x200 ≤ w.toNat ∧ w.toNat ≤ 0x2FF := by
  cases w using beatWord_cases <;> simp [packBeat_toNat] <;> omega

theorem decode_eq_dtf_iff (w : BeatWord) :
    decode w = .dtf (fieldData w) ↔ 0x300 ≤ w.toNat ∧ w.toNat ≤ 0x3FF := by
  cases w using beatWord_cases <;> simp [packBeat_toNat] <;> omega

/-! ## The rows of the operation map (R55) -/

/-- No row looks at the data field: every mask lies inside the three control bits. -/
theorem rowSelects_packBeat {r : OpcodeRow} (hr : r ∈ opcodeRows) (rst valid first : Bool) (data : Byte) :
    rowSelects r (packBeat rst valid first data) = rowSelects r (packBeat rst valid first 0#8) := by
  have hmask : 0x700#11 &&& r.mask = r.mask := by revert r; decide
  have hand (d : Byte) :
      packBeat rst valid first d &&& r.mask = packBeat rst valid first 0#8 &&& r.mask := by
    rw [← hmask, ← BitVec.and_assoc, ← BitVec.and_assoc, Laws.packBeat_and_controls, Laws.packBeat_and_controls]
  simp only [rowSelects, hand]

/-- The rows a word selects are those its control bits select. -/
theorem filter_rowSelects_packBeat (rst valid first : Bool) (data : Byte) :
    opcodeRows.filter (fun r => rowSelects r (packBeat rst valid first data)) =
      opcodeRows.filter fun r => rowSelects r (packBeat rst valid first 0#8) :=
  List.filter_congr fun _ hr => rowSelects_packBeat hr rst valid first data

/-- A word selects exactly the row of the operation it decodes to. -/
theorem filter_rowSelects_eq (w : BeatWord) :
    opcodeRows.filter (fun r => rowSelects r w) = [opcodeRowOf (decode w)] := by
  cases w using beatWord_cases with
  | rst valid first data =>
    rw [filter_rowSelects_packBeat, decode_packBeat_rst]
    revert valid first; decide
  | nop data => rw [filter_rowSelects_packBeat, decode_packBeat_nop]; decide
  | clr data => rw [filter_rowSelects_packBeat, decode_packBeat_clr]; decide
  | dtb data => rw [filter_rowSelects_packBeat, decode_packBeat_dtb, opcodeRowOf]; decide
  | dtf data => rw [filter_rowSelects_packBeat, decode_packBeat_dtf, opcodeRowOf]; decide

/-- The row of an operation bears its mnemonic. -/
@[simp] theorem opcodeRowOf_mnemonic (i : Instr) : (opcodeRowOf i).mnemonic = i.mnemonic := by
  cases i <;> rfl

/-- A mask that keeps the bits from `k` on rounds a number down to a multiple of `2 ^ k`. -/
theorem and_allOnes_shiftLeft_toNat (w : BeatWord) (k : Nat) :
    (w &&& BitVec.allOnes 11 <<< k).toNat = w.toNat / 2 ^ k * 2 ^ k := by
  rw [← BitVec.shiftLeft_ushiftRight, BitVec.toNat_shiftLeft, BitVec.toNat_ushiftRight, Nat.shiftLeft_eq,
    Nat.shiftRight_eq_div_pow]
  exact Nat.mod_eq_of_lt ((Nat.div_mul_le_self ..).trans_lt w.isLt)

/-- A row selects the run of consecutive words that begins at its match value, as long as its mask leaves free. -/
theorem rowSelects_iff {r : OpcodeRow} (hr : r ∈ opcodeRows) (w : BeatWord) :
    rowSelects r w ↔ r.value.toNat ≤ w.toNat ∧ w.toNat < r.value.toNat + (2048 - r.mask.toNat) := by
  have hrst : (w &&& 0x400#11).toNat = w.toNat / 1024 * 1024 := and_allOnes_shiftLeft_toNat w 10
  have hcontrols : (w &&& 0x700#11).toNat = w.toNat / 256 * 256 := and_allOnes_shiftLeft_toNat w 8
  rw [rowSelects, beq_iff_eq, ← BitVec.toNat_inj]
  simp only [opcodeRows, List.mem_cons, List.not_mem_nil, or_false] at hr
  obtain rfl | rfl | rfl | rfl | rfl := hr
  · simp [rowRst, hrst]; omega
  · simp [rowNop, hcontrols]
  · simp [rowClr, hcontrols]; omega
  · simp [rowDtb, hcontrols]; omega
  · simp [rowDtf, hcontrols]; omega

/-- How many numbers below `n` lie in an interval below `n`. -/
theorem countP_range_interval {lo hi n : Nat} (h : hi ≤ n) :
    (List.range n).countP (fun k => decide (lo ≤ k ∧ k < hi)) = hi - lo := by
  have hIco : {k ∈ Finset.range n | lo ≤ k ∧ k < hi} = Finset.Ico lo hi := by
    ext k; simp only [Finset.mem_filter, Finset.mem_range, Finset.mem_Ico]; omega
  rw [← Nat.card_Ico, ← hIco, ← Nat.count_eq_card_filter_range]; rfl

/-- A row selects as many words as its mask leaves free. -/
theorem countP_rowSelects {r : OpcodeRow} (hr : r ∈ opcodeRows) :
    (List.range 2048).countP (fun n => rowSelects r (BitVec.ofNat 11 n)) = 2048 - r.mask.toNat := by
  have hfits : r.value.toNat + (2048 - r.mask.toNat) ≤ 2048 := by revert r; decide
  have hrun : ∀ n ∈ List.range 2048, rowSelects r (BitVec.ofNat 11 n) ↔
      decide (r.value.toNat ≤ n ∧ n < r.value.toNat + (2048 - r.mask.toNat)) := by
    intro n hn
    rw [rowSelects_iff hr, BitVec.toNat_ofNat, Nat.mod_eq_of_lt (List.mem_range.mp hn), decide_eq_true_iff]
  rw [List.countP_congr hrun, countP_range_interval hfits, Nat.add_sub_cancel_left]

/-- Settles O2: the rows are literals, each selects as many words as its mask leaves free, and a word selects the row of
its operation alone. -/
theorem operationMapSelectsExactlyOneRow : Obligations.OperationMapSelectsExactlyOneRow := by
  refine ⟨by decide, ?_, fun w => ⟨filter_rowSelects_eq w, opcodeRowOf_mnemonic _, ?_⟩⟩
  · rw [List.map_congr_left fun r hr => countP_rowSelects hr]; decide
  · exact ⟨decode_eq_rst_iff w, decode_eq_nop_iff w, decode_eq_clr_iff w, decode_eq_dtb_iff w, decode_eq_dtf_iff w⟩

/-! ## Numbers as beat words (R50, log 6) -/

/-- A number of 11 bits is read as that beat word. -/
theorem decodeNumber_of_lt {n : Nat} (h : n < 2048) : decodeNumber n = .ok (decode (BitVec.ofNat 11 n)) := if_pos h

/-- A larger number is rejected. -/
theorem decodeNumber_of_ge {n : Nat} (h : 2048 ≤ n) : decodeNumber n = .error .notElevenBits :=
  if_neg (Nat.not_lt.mpr h)

/-- Settles O6: the number of a word has 11 bits and is that word again. -/
theorem numbersOfElevenBitsDecode : Obligations.NumbersOfElevenBitsDecode := by
  refine ⟨fun w => ?_, fun n => decodeNumber_of_ge⟩
  rw [decodeNumber_of_lt w.isLt, BitVec.ofNat_toNat, BitVec.setWidth_eq]

/-- A table number gives an operation exactly if it has 11 bits and that operation is decoded from it. -/
theorem decodeTableWord_eq_some_iff (nbits n : Nat) (i : Instr) :
    decodeTableWord nbits n = some i ↔ n < 2048 ∧ decode (BitVec.ofNat 11 n) = i := by
  rw [decodeTableWord]
  by_cases h : n < 2048
  · simp [decodeNumber_of_lt h, h]
  · simp [decodeNumber_of_ge (Nat.le_of_not_lt h), h]

/-! ## The beat that a word makes the machine run (R56, log 6) -/

/-- A step runs the operation of the next listed word, on the state without that word. -/
theorem step_pending_cons (s : State) (w : BeatWord) (rest : List BeatWord) :
    step { s with pending := w :: rest } = exec (decode w) { s with pending := rest } := rfl

/-- Settles O7: a step reads only the operation of its word, and words that differ in ignored fields have the same. -/
theorem ignoredFieldsHaveNoEffect : Obligations.IgnoredFieldsHaveNoEffect := by
  refine fun s rest => ⟨fun w => ⟨_, step_eq_stepWith _⟩, fun first data data' => ?_, fun _ _ _ _ _ _ => ?_⟩
  · rw [step_pending_cons, step_pending_cons]
    cases first with
    | false => rw [decode_packBeat_nop, decode_packBeat_nop]
    | true => rw [decode_packBeat_clr, decode_packBeat_clr]
  · rw [step_pending_cons, step_pending_cons, decode_packBeat_rst, decode_packBeat_rst]

/-- Settles O11: a number that decodes is presented, and the next step samples it and leaves the state as it was. -/
theorem placedWordRunsInTheNextStep : Obligations.PlacedWordRunsInTheNextStep := by
  intro s nbits w i h
  obtain ⟨hw, rfl⟩ := (decodeTableWord_eq_some_iff nbits w i).mp h
  rw [State.withFetchWord, placeBeat_of_lt hw, step_pending_cons]

end Sys2Proof.Machine
end

section
/-! PROOF. The written form of a trace (30_encoding.md R58): digits and bytes, the words of a line and its comment, and
whole traces. -/

namespace Sys2Proof.Machine

/-! ## Digits and bytes -/

/-- The digit of a nibble is the one of its value. -/
theorem hexChar_eq_getD (n : BitVec 4) : hexChar n = "0123456789ABCDEF".toList.getD n.toNat ' ' := by
  revert n; decide

/-- The two digits of a byte are those of its quotient and its remainder by 16. -/
theorem hexByte_eq_getD (b : Byte) :
    hexByte b =
      ["0123456789ABCDEF".toList.getD (b.toNat / 16) ' ', "0123456789ABCDEF".toList.getD (b.toNat % 16) ' '] := by
  have hhigh : (b.extractLsb' 4 4).toNat = b.toNat / 16 := by
    rw [BitVec.extractLsb'_toNat, Nat.shiftRight_eq_div_pow]; omega
  have hlow : (b.extractLsb' 0 4).toNat = b.toNat % 16 := by
    rw [BitVec.extractLsb'_toNat, Nat.shiftRight_zero]
  rw [hexByte, hexChar_eq_getD, hexChar_eq_getD, hhigh, hlow]

/-- A byte is read back from its two digits. -/
@[simp] theorem parseDigits_hexByte (b : Byte) : parseDigits (hexByte b) = some b := by
  simp only [hexByte, parseDigits, hexValue_hexChar]
  exact congrArg some BitVec.extractLsb'_append_extractLsb'

/-- A `data` field is read back from `0x` and two digits. -/
@[simp] theorem parseData_hexByte (b : Byte) : parseData ('0' :: 'x' :: hexByte b) = some b :=
  parseDigits_hexByte b

/-! ## Canonical words -/

theorem encode_dtb_toNat (b : Byte) : (encode (.dtb b)).toNat = 0x200 + b.toNat := by
  simp [encode, packBeat_toNat]

theorem encode_dtf_toNat (b : Byte) : (encode (.dtf b)).toNat = 0x300 + b.toNat := by
  simp [encode, packBeat_toNat]

/-! ## Lines -/

/-- No line contains the character that begins a comment. -/
theorem not_mem_renderLine_semicolon (i : Instr) : ∀ c ∈ renderLine i, (c != ';') = true := by
  cases i <;> simp [renderLine, hexByte, hexChar_ne_semicolon]

/-- A line without a comment is kept whole. -/
theorem stripComment_renderLine (i : Instr) : stripComment (renderLine i) = renderLine i :=
  List.takeWhile_eq_self_iff.mpr (not_mem_renderLine_semicolon i)

/-- A comment after a line is dropped. -/
theorem stripComment_renderLine_append (i : Instr) (comment : List Char) :
    stripComment (renderLine i ++ ';' :: comment) = renderLine i := by
  rw [stripComment, List.takeWhile_append_of_pos (not_mem_renderLine_semicolon i)]
  simp

/-- The words of a line: the mnemonic, and the `data` field of an operation that has one. -/
def lineWords : Instr → List (List Char)
  | .rst => [['R', 'S', 'T']]
  | .nop => [['N', 'O', 'P']]
  | .clr => [['C', 'L', 'R']]
  | .dtb b => [['D', 'T', 'B'], '0' :: 'x' :: hexByte b]
  | .dtf b => [['D', 'T', 'F'], '0' :: 'x' :: hexByte b]

/-- A line is split into its words, since no digit is a blank. -/
theorem splitWords_renderLine (i : Instr) : splitWords (renderLine i) [] = lineWords i := by
  cases i <;> simp [renderLine, lineWords, hexByte, splitWords, hexChar_ne_blank]

/-- Text whose words are those of a line is read as the line's operation. -/
theorem parseLine_of_words {line : List Char} {i : Instr} (h : splitWords (stripComment line) [] = lineWords i) :
    parseLine line = some i := by
  rw [parseLine, h]
  cases i <;> simp [lineWords]

/-- A line is read back as its operation. -/
@[simp] theorem parseLine_renderLine (i : Instr) : parseLine (renderLine i) = some i :=
  parseLine_of_words (by rw [stripComment_renderLine, splitWords_renderLine])

/-- A line with a comment after it is read as its operation. -/
theorem parseLine_renderLine_append (i : Instr) (comment : List Char) :
    parseLine (renderLine i ++ ';' :: comment) = some i :=
  parseLine_of_words (by rw [stripComment_renderLine_append, splitWords_renderLine])

/-! ## Traces -/

/-- A line of one of the five forms stands for one beat: it is no `PAYLOAD` line. -/
theorem expandLine_renderLine (i : Instr) : expandLine (renderLine i) = some [i] := by
  rw [expandLine, stripComment_renderLine, splitWords_renderLine, parseLine_renderLine]
  cases i <;> rfl

/-- A trace written line by line is read as the beats of its lines, in order. -/
theorem mapM_expandLine_renderLine (is : List Instr) :
    (is.map renderLine).mapM expandLine = some (is.map fun i => [i]) := by
  have hcomp : expandLine ∘ renderLine = fun i => some [i] := funext expandLine_renderLine
  rw [List.mapM_map, hcomp]
  exact List.mapM_pure

/-- A trace written line by line is assembled into the canonical words of its operations. -/
theorem assemble_map_renderLine (is : List Instr) : assemble (is.map renderLine) = some (is.map encode) := by
  rw [assemble, mapM_expandLine_renderLine, Option.map_some, ← List.flatMap_def, List.flatMap_singleton']

/-- Settles O4: digits, lines and whole traces are each read back, and the words written are canonical. -/
theorem traceTextIsReadBack : Obligations.TraceTextIsReadBack := by
  refine ⟨⟨rfl, rfl, rfl, fun _ => ⟨rfl, rfl⟩⟩, hexByte_eq_getD, parseDigits_hexByte, by decide, by decide,
    by decide, fun b => ⟨encode_dtb_toNat b, encode_dtf_toNat b⟩, fun w => (decode_encode (decode w)).symm, ?_,
    assemble_map_renderLine⟩
  exact fun i comment => ⟨parseLine_renderLine i, parseLine_renderLine_append i comment⟩

end Sys2Proof.Machine
end

section
/-! PROOF. The pseudo-operation `PAYLOAD` (30_encoding.md R59, R60): runs of `DTB` beats, `NOP` beats in a trace, and the
three ways to begin a payload. -/

namespace Sys2Proof.Machine

/-- `detransform` is the payload function started at position 0 (41_beat_operations.md R101). -/
theorem detransform_eq_detransformFrom_zero (t : Config.Tables) (raw : List Byte) :
    detransform t raw = detransformFrom t 0#8 raw := by
  simp [detransform, detransformFrom]

/-- A run of `DTB` beats emits the payload function started at `POS`, and advances `POS` once for each byte. -/
theorem runTrace_map_dtb (t : Config.Tables) (p : Byte) (raw : List Byte) :
    runTrace t p (raw.map .dtb) = (p + BitVec.ofNat 8 raw.length, detransformFrom t p raw) := by
  induction raw generalizing p with
  | nil => simp
  | cons b bs ih =>
    have hpos : p + 1#8 + BitVec.ofNat 8 bs.length = p + BitVec.ofNat 8 (b :: bs).length := by
      rw [List.length_cons, BitVec.add_assoc, BitVec.ofNat_add, BitVec.add_comm 1#8]
    rw [List.map_cons, runTrace_cons, instrBeat_dtb, ih, hpos, detransformFrom_cons]
    rfl

/-- `NOP` beats change neither the bytes emitted nor the final `POS` (41_beat_operations.md R92). -/
theorem runTrace_dropNops (t : Config.Tables) (p : Byte) (is : List Instr) :
    runTrace t p (dropNops is) = runTrace t p is := by
  induction is generalizing p with
  | nil => rfl
  | cons i is ih =>
    by_cases h : i = .nop
    · subst h
      rw [runTrace_cons, instrBeat_nop, ← ih]; rfl
    · have hkeep : dropNops (i :: is) = i :: dropNops is := by simp [dropNops, h]
      rw [hkeep, runTrace_cons, runTrace_cons, ih]

/-- However a payload is begun, its beats run as those of its bytes by `DTB` from position 0. -/
theorem runTrace_payloadBegun_eq_dtb (t : Config.Tables) (p : Byte) (start : PayloadStart) (raw : List Byte) :
    runTrace t p (payloadBegun start raw) = runTrace t 0#8 (raw.map .dtb) := by
  cases start with
  | byClr | byRst => rfl
  | byDtf => cases raw <;> rfl

/-- However a payload is begun, its beats emit `detransform` of its bytes and leave `POS` at their number modulo 256. -/
theorem runTrace_payloadBegun (t : Config.Tables) (p : Byte) (start : PayloadStart) (raw : List Byte) :
    runTrace t p (payloadBegun start raw) = (BitVec.ofNat 8 (raw.length % 256), detransform t raw) := by
  have hpos : 0#8 + BitVec.ofNat 8 raw.length = BitVec.ofNat 8 (raw.length % 256) := by
    apply BitVec.eq_of_toNat_eq; simp
  rw [runTrace_payloadBegun_eq_dtb, runTrace_map_dtb, hpos, detransform_eq_detransformFrom_zero]

/-- Settles O41: the `NOP` lines can be dropped, and what is left is a payload begun with its first byte. -/
theorem payloadTraceEmitsDetransform : Obligations.PayloadTraceEmitsDetransform := by
  refine ⟨⟨rfl, fun _ _ => rfl⟩, fun t p raw is his => ?_⟩
  rw [← runTrace_dropNops, his]
  exact runTrace_payloadBegun t p .byDtf raw

/-- Settles O42: each expansion runs as the payload's bytes do from position 0, so no two of them differ. -/
theorem payloadExpansionsAgree : Obligations.PayloadExpansionsAgree := by
  refine ⟨fun _ => ⟨rfl, rfl⟩, fun t p raw _ => ?_⟩
  have hagree (start : PayloadStart) :
      runTrace t p (payloadBegun start raw) = runTrace t p (payloadBegun .byDtf raw) := by
    rw [runTrace_payloadBegun_eq_dtb, runTrace_payloadBegun_eq_dtb]
  exact ⟨hagree .byClr, hagree .byRst⟩

end Sys2Proof.Machine
end

section
/-! PROOF. The rotations of 40_transform_datapath.md: `ROTL8` bit by bit, as a shift-or formula and as a number (R71, R80),
and `ROTR8`, which undoes it (R72). -/

namespace Sys2Proof.Machine

/-! ## `ROTL8` bit by bit (R71) -/

/-- Bit `j` moves `s` places towards bit 7, and round to bit 0 from there. -/
theorem getLsbD_rotl8_add (b : Byte) (s : Shift) {j : Nat} (hj : j < 8) :
    (rotl8 b s).getLsbD ((j + s.toNat) % 8) = b.getLsbD j := by
  rw [getLsbD_rotl8 b s _ (Nat.mod_lt _ (by decide))]
  congr 1; omega

/-- Two rotations add modulo 8. -/
theorem rotl8_rotl8 (b : Byte) (s u : Shift) :
    rotl8 (rotl8 b s) u = rotl8 b (BitVec.ofNat 3 ((s.toNat + u.toNat) % 8)) := by
  apply BitVec.eq_of_getLsbD_eq
  intro m hm
  rw [getLsbD_rotl8 _ _ _ hm, getLsbD_rotl8 _ _ _ hm, getLsbD_rotl8 _ _ _ (Nat.mod_lt _ (by decide)),
    BitVec.toNat_ofNat]
  congr 1; omega

/-- The bit positions that a rotation reads are the eight positions in another order. -/
theorem rotl8_positions_perm (s : Shift) :
    ((List.range 8).map fun m => (m + 8 - s.toNat) % 8).Perm (List.range 8) := by
  revert s; decide

/-- A rotation reads each bit once, so it keeps the number of 1 bits. -/
theorem countP_getLsbD_rotl8 (b : Byte) (s : Shift) :
    (List.range 8).countP (rotl8 b s).getLsbD = (List.range 8).countP b.getLsbD := by
  have hbits : ∀ m ∈ List.range 8, (rotl8 b s).getLsbD m = b.getLsbD ((m + 8 - s.toNat) % 8) :=
    fun m hm => getLsbD_rotl8 b s m (List.mem_range.mp hm)
  calc (List.range 8).countP (rotl8 b s).getLsbD
      = (List.range 8).countP (b.getLsbD ∘ fun m => (m + 8 - s.toNat) % 8) :=
        List.countP_congr fun m hm => by rw [hbits m hm, Function.comp_apply]
    _ = (List.range 8).countP b.getLsbD := by
        rw [← List.countP_map, (rotl8_positions_perm s).countP_eq]

/-- The byte without 1 bits stays as it is. -/
@[simp] theorem rotl8_zeroes (s : Shift) : rotl8 0x00#8 s = 0x00#8 := by revert s; decide

/-- The byte without 0 bits stays as it is. -/
@[simp] theorem rotl8_ones (s : Shift) : rotl8 0xFF#8 s = 0xFF#8 := by revert s; decide

/-! ## `ROTL8` as a formula (R71, R80) -/

/-- The source's formula needs no branch: a right shift by the full width leaves nothing. -/
theorem rotl8_eq_or (b : Byte) (s : Shift) : rotl8 b s = b >>> (8 - s.toNat) ||| b <<< s.toNat := by
  by_cases h : s = 0#3
  · subst h; simp [BitVec.ushiftRight_eq_zero]
  · rw [rotl8_of_ne_zero b h, BitVec.or_comm]

/-- The source's formula on numbers, cut to 8 bits. -/
theorem rotl8_toNat_eq_or (b : Byte) (s : Shift) :
    (rotl8 b s).toNat = ((b.toNat >>> (8 - s.toNat)) ||| (b.toNat <<< s.toNat)) % 256 := by
  have hright : b.toNat >>> (8 - s.toNat) < 2 ^ 8 := (Nat.shiftRight_le ..).trans_lt b.isLt
  rw [rotl8_eq_or, BitVec.toNat_or, BitVec.toNat_ushiftRight, BitVec.toNat_shiftLeft,
    show 256 = 2 ^ 8 by rfl, Nat.or_mod_two_pow, Nat.mod_eq_of_lt hright]

/-- The arithmetic of R71: the low bits move up, and the top bits come round below them. -/
theorem rotl8_toNat (b : Byte) (s : Shift) :
    (rotl8 b s).toNat = b.toNat * 2 ^ s.toNat % 256 + b.toNat / 2 ^ (8 - s.toNat) := by
  have hs : s.toNat < 8 := s.isLt
  have hsplit : 2 ^ (8 - s.toNat) * 2 ^ s.toNat = 256 := by
    rw [← Nat.pow_add, Nat.sub_add_cancel hs.le]
  have hhigh : b.toNat * 2 ^ s.toNat % 256 = (b.toNat % 2 ^ (8 - s.toNat)) <<< s.toNat := by
    rw [Nat.shiftLeft_eq, ← hsplit, Nat.mul_mod_mul_right]
  have hlow : b.toNat / 2 ^ (8 - s.toNat) < 2 ^ s.toNat :=
    Nat.div_lt_of_lt_mul (hsplit ▸ b.isLt)
  rw [rotl8_eq_or, BitVec.toNat_or, BitVec.toNat_ushiftRight, BitVec.toNat_shiftLeft, Nat.or_comm,
    Nat.shiftRight_eq_div_pow, Nat.shiftLeft_eq, hhigh, Nat.shiftLeft_add_eq_or_of_lt hlow]

/-- Settles O29: the formula on bytes has no case for `s = 0`, and its number is cut to 8 bits as a byte is. -/
theorem rotateLeftIsTheSourceFormula : Obligations.RotateLeftIsTheSourceFormula :=
  ⟨rotl8_toNat_eq_or, fun b => Nat.shiftRight_eq_zero b.toNat 8 b.isLt, fun b s _ => rotl8_eq_or b s⟩

/-- By 4 the two nibbles change places. -/
theorem rotl8_four (b : Byte) : rotl8 b 4#3 = b.extractLsb' 0 4 ++ b.extractLsb' 4 4 := by
  have hformula : (rotl8 b 4#3).toNat = b.toNat * 16 % 256 + b.toNat / 16 := rotl8_toNat b 4#3
  have hhigh : b.toNat * 16 % 256 = b.toNat % 2 ^ 4 * 2 ^ 4 := Nat.mul_mod_mul_right 16 b.toNat 16
  have hlow : b.toNat / 2 ^ 4 % 2 ^ 4 = b.toNat / 16 := Nat.mod_eq_of_lt (Nat.div_lt_of_lt_mul b.isLt)
  apply BitVec.eq_of_toNat_eq
  rw [hformula, toNat_append_eq_add, BitVec.extractLsb'_toNat, BitVec.extractLsb'_toNat, Nat.shiftRight_zero,
    Nat.shiftRight_eq_div_pow, hhigh, hlow]

/-! ## `ROTR8` (R72) -/

/-- Bit `j` moves `s` places towards bit 0, and round to bit 7 from there. -/
theorem getLsbD_rotr8_sub (b : Byte) (s : Shift) {j : Nat} (hj : j < 8) :
    (rotr8 b s).getLsbD ((j + 8 - s.toNat) % 8) = b.getLsbD j := by
  rw [rotr8, getLsbD_rotl8 _ _ _ (Nat.mod_lt _ (by decide)), BitVec.toNat_ofNat]
  congr 1; omega

/-- A shift amount and the one back to it add up to no rotation, in either order. -/
theorem rotl8_inverse_amounts (s : Shift) :
    BitVec.ofNat 3 ((s.toNat + (BitVec.ofNat 3 ((8 - s.toNat) % 8)).toNat) % 8) = 0#3 ∧
      BitVec.ofNat 3 (((BitVec.ofNat 3 ((8 - s.toNat) % 8)).toNat + s.toNat) % 8) = 0#3 := by
  revert s; decide

@[simp] theorem rotr8_rotl8 (b : Byte) (s : Shift) : rotr8 (rotl8 b s) s = b := by
  rw [rotr8, rotl8_rotl8, (rotl8_inverse_amounts s).1, rotl8_zero]

@[simp] theorem rotl8_rotr8 (b : Byte) (s : Shift) : rotl8 (rotr8 b s) s = b := by
  rw [rotr8, rotl8_rotl8, (rotl8_inverse_amounts s).2, rotl8_zero]

/-- A byte with one 1 bit tells the two directions apart, except at amount 4. -/
theorem rotl8_one_eq_rotr8_one {s : Shift} (hs : s ≠ 0#3) (h : rotl8 0x01#8 s = rotr8 0x01#8 s) : s = 4#3 := by
  revert s; decide

/-- Left and right rotation by a nonzero amount agree at 4 alone. -/
theorem rotl8_eq_rotr8_iff {s : Shift} (hs : s ≠ 0#3) : (∀ b, rotl8 b s = rotr8 b s) ↔ s = 4#3 := by
  refine ⟨fun h => rotl8_one_eq_rotr8_one hs (h _), ?_⟩
  rintro rfl b
  rfl

/-- Settles O26: `ROTR8` is a left rotation by the amount that makes 8, so the two together rotate by none. -/
theorem rotateRightUndoesRotateLeft : Obligations.RotateRightUndoesRotateLeft :=
  ⟨fun _ _ => rfl, fun b s _ => getLsbD_rotr8_sub b s, by decide, by decide,
    fun b s => ⟨rotr8_rotl8 b s, rotl8_rotr8 b s⟩⟩

/-- Settles O25: each part is a law of `ROTL8` above; the corner values are computed. -/
theorem rotateLeftMovesEveryBit : Obligations.RotateLeftMovesEveryBit :=
  ⟨rotl8_zero, fun b s _ => rotl8_toNat b s, fun b s _ => getLsbD_rotl8_add b s, getLsbD_rotl8,
    fun s => ⟨rotl8_zeroes s, rotl8_ones s⟩, rotl8_four, fun _ => rotl8_eq_rotr8_iff, by decide, by decide, by decide,
    countP_getLsbD_rotl8, rotl8_rotl8⟩

end Sys2Proof.Machine
end

section
/-! PROOF. The bytes of 40_transform_datapath.md: the unsigned and the signed reading (R73), the lookup (R75), and the byte
function, which the forward function undoes (R76, R77, R113). -/

namespace Sys2Proof.Machine

/-! ## `U8` and `S8` (R73) -/

/-- `U8` by its cases, on the values that a signed byte can have. -/
theorem u8_toNat {v : Int} (hlo : -128 ≤ v) (hhi : v ≤ 127) :
    ((u8 v).toNat : Int) = if 0 ≤ v then v else v + 256 := by
  rw [u8_eq_ofInt, BitVec.toNat_ofInt]
  split <;> omega

/-- `S8` undoes `U8` on the values that a signed byte can have. -/
theorem s8_u8 {v : Int} (hlo : -128 ≤ v) (hhi : v ≤ 127) : s8 (u8 v) = v := by
  rw [s8_eq_toInt, u8_eq_ofInt, BitVec.toInt_ofInt_eq_self (by decide) hlo (Int.lt_add_one_of_le hhi)]

/-- `S8` answers a value that a signed byte can have. -/
theorem s8_bounds (u : Byte) : -128 ≤ s8 u ∧ s8 u ≤ 127 := by
  rw [s8_eq_toInt]
  exact ⟨BitVec.le_toInt u, Int.le_of_lt_add_one BitVec.toInt_lt⟩

/-- Bit 7 of a byte is the sign of its signed reading. -/
theorem getLsbD_seven_iff (u : Byte) : u.getLsbD 7 = true ↔ s8 u < 0 := by
  rw [s8_eq_toInt, ← decide_eq_true_iff (p := u.toInt < 0), ← BitVec.msb_eq_toInt, BitVec.msb_eq_getLsbD_last]

/-- A wider two's-complement pattern of a value, cut to 8 bits, is its `U8`. -/
theorem setWidth_ofInt_eq_u8 (v : Int) {n : Nat} (hn : 8 ≤ n) : (BitVec.ofInt n v).setWidth 8 = u8 v := by
  have hdvd : ((2 ^ 8 : Nat) : Int) ∣ (2 ^ n : Nat) := Int.natCast_dvd_natCast.mpr (Nat.pow_dvd_pow 2 hn)
  have hnonneg : 0 ≤ v % ((2 ^ n : Nat) : Int) := Int.emod_nonneg v (by positivity)
  apply BitVec.eq_of_toNat_eq
  rw [u8_eq_ofInt, BitVec.toNat_setWidth, BitVec.toNat_ofInt, BitVec.toNat_ofInt, ← Int.emod_emod_of_dvd v hdvd,
    Int.toNat_emod hnonneg (by decide), Int.toNat_natCast]

/-- Settles O27: `U8` is the two's-complement pattern and `S8` its reading; the corner values are computed. -/
theorem unsignedReadingOfASignedByte : Obligations.UnsignedReadingOfASignedByte := by
  refine ⟨fun v hlo hhi => ⟨u8_toNat hlo hhi, s8_u8 hlo hhi, ?_, fun n => setWidth_ofInt_eq_u8 v⟩,
    fun u => ⟨rfl, (s8_bounds u).1, (s8_bounds u).2, u8_s8 u⟩, by decide⟩
  rw [getLsbD_seven_iff, s8_u8 hlo hhi]

/-! ## The lookup (R75) -/

/-- Settles O24: the lookup is a pair by definition, and the ranges are those of a shift amount and a signed byte. -/
theorem lookupReadsBothTablesAtOneIndex : Obligations.LookupReadsBothTablesAtOneIndex := by
  refine ⟨fun t k => ⟨rfl, u8_s8 (readKs t k), ?_, s8_bounds (readKs t k)⟩, tableIndex_toNat⟩
  exact Nat.le_of_lt_succ (readSh t k).isLt

/-! ## The byte function (R76, R77, R113) -/

/-- Where the shift amount is 0 the byte function only masks (R77). -/
theorem detransformByte_of_readSh_eq_zero {t : Config.Tables} {k : Index} (h : readSh t k = 0#3) (b : Byte) :
    detransformByte t k b = b ^^^ u8 (ksRom t k) := by
  rw [detransformByte, lookup, h, rotl8_zero]

/-- The byte of zeros gives the keystream byte. -/
theorem detransformByte_zeroes (t : Config.Tables) (k : Index) : detransformByte t k 0x00#8 = u8 (ksRom t k) := by
  rw [detransformByte, rotl8_zeroes, BitVec.zero_xor, lookup]

/-- The byte of ones gives the complement of the keystream byte. -/
theorem detransformByte_ones (t : Config.Tables) (k : Index) : detransformByte t k 0xFF#8 = ~~~(u8 (ksRom t k)) := by
  rw [detransformByte, rotl8_ones, lookup]
  exact BitVec.allOnes_xor

/-- The forward function undoes the byte function. -/
@[simp] theorem forwardByte_detransformByte (t : Config.Tables) (k : Index) (b : Byte) :
    forwardByte t k (detransformByte t k b) = b := by
  rw [forwardByte, detransformByte, BitVec.xor_assoc, BitVec.xor_self, BitVec.xor_zero, rotr8_rotl8]

/-- The byte function undoes the forward function. -/
@[simp] theorem detransformByte_forwardByte (t : Config.Tables) (k : Index) (x : Byte) :
    detransformByte t k (forwardByte t k x) = x := by
  rw [forwardByte, detransformByte, rotl8_rotr8, BitVec.xor_assoc, BitVec.xor_self, BitVec.xor_zero]

/-- For each index the byte function is a bijection, whose inverse is the forward function. -/
theorem detransformByte_bijective (t : Config.Tables) (k : Index) : Function.Bijective (detransformByte t k) :=
  Function.bijective_iff_has_inverse.mpr
    ⟨forwardByte t k, forwardByte_detransformByte t k, detransformByte_forwardByte t k⟩

/-- Output byte `i` of a payload is the byte function at `i mod 256` of input byte `i`, if there is one. -/
theorem getElem?_detransform (t : Config.Tables) (raw : List Byte) (i : Nat) :
    (detransform t raw)[i]? = raw[i]?.map (detransformByte t (BitVec.ofNat 8 (i % 256))) := by
  have hindex : tableIndex i = BitVec.ofNat 8 (i % 256) := by
    apply BitVec.eq_of_toNat_eq; simp
  rw [detransform, List.getElem?_mapIdx, hindex]

/-- Settles O28: the byte function rotates and then masks by definition, and each step can be undone. -/
theorem byteIsRotatedThenMasked : Obligations.ByteIsRotatedThenMasked := by
  refine ⟨fun _ _ _ => rfl, rotl8_zero, fun _ _ => detransformByte_of_readSh_eq_zero, fun t k => ?_,
    fun t raw i b hb => ?_⟩
  · exact ⟨detransformByte_zeroes t k, detransformByte_ones t k, detransformByte_bijective t k⟩
  · rw [getElem?_detransform, hb, Option.map_some]

end Sys2Proof.Machine
end

section
/-! PROOF. The step function and the five operations (41_beat_operations.md R90 to R95): the words of each operation, its
next state from every state, and the invariant that a state follows its history. -/

namespace Sys2Proof.Machine

/-! ## The step (R90) -/

/-- With no word listed, a step runs the operation of the host's free choice, and only `draws` advances beside it. -/
theorem step_pending_nil (s : State) :
    step { s with pending := [] } =
      exec (decode (Config.hostBeat s.draws)) { s with pending := [], draws := s.draws + 1 } := by
  rw [step, sampleBeat_of_nil rfl]

/-- Settles O8: a listed word is sampled from the front of the list, and an empty list leaves the choice to the host. -/
theorem stepRunsTheSampledBeat : Obligations.StepRunsTheSampledBeat :=
  ⟨step_pending_cons, step_pending_nil⟩

/-- Settles O9: a step commits one result, an operation commits its own, and `Fault` has no constructor. -/
theorem noStepEverStops : Obligations.NoStepEverStops :=
  ⟨fun s => ⟨_, step_eq_stepWith s⟩, fun i s => ⟨_, exec_eq_commit i s⟩, ⟨nofun⟩⟩

/-- The step function by the fields of the beat word. -/
theorem beat_eq_ite (t : Config.Tables) (p : Byte) (w : BeatWord) :
    beat t p w =
      if fieldRst w then ⟨0#8, none⟩
      else if !fieldValid w && !fieldFirst w then ⟨p, none⟩
      else if !fieldValid w && fieldFirst w then ⟨0#8, none⟩
      else if fieldValid w && !fieldFirst w then ⟨p + 1#8, some (detransformByte t p (fieldData w))⟩
      else ⟨1#8, some (detransformByte t 0#8 (fieldData w))⟩ := by
  cases w using beatWord_cases <;> simp [beat]

/-- Settles O10: the chain of cases is the decoder's, and a step commits the function's result. -/
theorem stepIsTheStepFunctionOfTheSpec : Obligations.StepIsTheStepFunctionOfTheSpec := by
  refine ⟨beat_eq_ite, fun s w rest => ?_⟩
  rw [step_pending_cons, exec_eq_commit]
  rfl

/-! ## The words of an operation (R55) -/

/-- The row of every operation stands in the operation map. -/
theorem opcodeRowOf_mem (i : Instr) : opcodeRowOf i ∈ opcodeRows := by
  cases i <;> simp [opcodeRowOf, opcodeRows]

/-- A word decodes to an operation exactly if it passes the mask test of the operation's row, given that the operand, if
the operation has one, is the word's data field. -/
theorem decode_eq_iff_and_mask {w : BeatWord} {i : Instr}
    (hdata : ∀ b, i = .dtb b ∨ i = .dtf b → b = fieldData w) :
    decode w = i ↔ w &&& (opcodeRowOf i).mask = (opcodeRowOf i).value := by
  have hw := w.isLt
  have hrow := rowSelects_iff (opcodeRowOf_mem i) w
  rw [rowSelects, beq_iff_eq] at hrow
  rw [hrow]
  cases i with
  | rst => rw [decode_eq_rst_iff]; simp [opcodeRowOf, rowRst]; omega
  | nop => rw [decode_eq_nop_iff]; simp [opcodeRowOf, rowNop]; omega
  | clr => rw [decode_eq_clr_iff]; simp [opcodeRowOf, rowClr]; omega
  | dtb b =>
    obtain rfl := hdata b (.inl rfl)
    rw [decode_eq_dtb_iff]; simp [opcodeRowOf, rowDtb]; omega
  | dtf b =>
    obtain rfl := hdata b (.inr rfl)
    rw [decode_eq_dtf_iff]; simp [opcodeRowOf, rowDtf]; omega

/-! ## The next state of each operation (R91 to R95) -/

/-- A result without a byte leaves the output sequence as it was. -/
theorem commit_none (s : State) (p : Byte) : commit s ⟨p, none⟩ = { s with pos := p, out := none } := by
  simp [commit]

theorem exec_rst (s : State) : exec .rst s = .next { s with pos := 0#8, out := none } := by
  rw [exec_eq_commit, instrBeat_rst, commit_none]

theorem exec_nop (s : State) : exec .nop s = .next { s with out := none } := by
  rw [exec_eq_commit, instrBeat_nop, commit_none]

theorem exec_clr (s : State) : exec .clr s = .next { s with pos := 0#8, out := none } := by
  rw [exec_eq_commit, instrBeat_clr, commit_none]

/-- Byte addition wraps as the reduction modulo 256 does. -/
theorem add_ofNat_eq_mod (p : Byte) (n : Nat) :
    p + BitVec.ofNat 8 n = BitVec.ofNat 8 ((p.toNat + n) % 256) := by
  apply BitVec.eq_of_toNat_eq; simp

/-- The beat of `DTB b`, in the terms of R94. -/
theorem instrBeat_dtb_eq (t : Config.Tables) (p b : Byte) :
    instrBeat t p (.dtb b) =
      ⟨BitVec.ofNat 8 ((p.toNat + 1) % 256), some (rotl8 b (readSh t p) ^^^ u8 (ksRom t p))⟩ := by
  rw [instrBeat_dtb, add_ofNat_eq_mod]; rfl

/-- A second `RST` or `CLR` finds `POS` and the output port as the first left them. -/
theorem exec_exec_of_clears {i : Instr} (h : ∀ s, exec i s = .next { s with pos := 0#8, out := none }) (s : State) :
    ∃ u, exec i s = .next u ∧ exec i u = .next u :=
  ⟨_, h s, h _⟩

/-- `CLR` and then `DTB b` do what `DTF b` does (R93, R95). -/
theorem exec_clr_then_dtb (b : Byte) (s : State) : ∃ u, exec .clr s = .next u ∧ exec (.dtb b) u = exec (.dtf b) s :=
  ⟨_, exec_clr s, rfl⟩

/-- Settles O12: the words are those of the row, and the result of `RST` reads nothing of the state. -/
theorem rstClearsThePosition : Obligations.RstClearsThePosition := by
  refine ⟨fun w => decode_eq_iff_and_mask (i := .rst) (by simp), by decide, fun s => ⟨exec_rst s, ?_, ?_⟩⟩
  · exact exec_exec_of_clears exec_rst s
  · exact exec_set_pos (fun _ _ => rfl) s

/-- Settles O13: traces that agree without their `NOP` beats run as what is left of both. -/
theorem nopChangesNothing : Obligations.NopChangesNothing := by
  refine ⟨fun w => decode_eq_iff_and_mask (i := .nop) (by simp), by decide, exec_nop, fun t p is js h => ?_⟩
  rw [← runTrace_dropNops, h, runTrace_dropNops]

/-- Settles O14: `CLR` answers what `RST` answers, and the state it answers is the one `DTF` runs as if from. -/
theorem clrStartsAPayload : Obligations.ClrStartsAPayload := by
  refine ⟨fun w => decode_eq_iff_and_mask (i := .clr) (by simp), by decide, fun s => ⟨exec_clr s, ?_, ?_⟩,
    fun _ _ => ⟨rfl, rfl⟩, exec_clr_then_dtb⟩
  · rw [exec_clr, exec_rst]
  · exact exec_exec_of_clears exec_clr s

/-- Settles O15: the beat of `DTB` in the terms of R94, alone and committed by the machine. -/
theorem dtbEmitsAtThePositionAndAdvances : Obligations.DtbEmitsAtThePositionAndAdvances := by
  refine ⟨fun w => decode_eq_iff_and_mask (i := .dtb (fieldData w)) (by simp), encode_dtb_toNat, fun t p b => ?_,
    fun b s => ?_⟩
  · rw [beat, decode_encode, instrBeat_dtb_eq]
  · rw [exec_eq_commit, instrBeat_dtb_eq]; rfl

/-- Settles O16: the beat of `DTF` reads index 0 and not `POS`, alone and committed by the machine. -/
theorem dtfEmitsAtZeroAndStartsAPayload : Obligations.DtfEmitsAtZeroAndStartsAPayload := by
  refine ⟨fun w => decode_eq_iff_and_mask (i := .dtf (fieldData w)) (by simp), encode_dtf_toNat, fun t p b => ?_,
    fun b s => ⟨rfl, ?_, exec_clr_then_dtb b s⟩⟩
  · rw [beat, decode_encode]; rfl
  · exact exec_set_pos (fun _ _ => rfl) s

/-! ## The invariant of every step (R90; 10_state.md R19) -/

/-- A run over one trace and then another goes on where the first one left `POS`. -/
theorem runTrace_append (t : Config.Tables) (p : Byte) (is js : List Instr) :
    runTrace t p (is ++ js) =
      ((runTrace t (runTrace t p is).1 js).1,
        (runTrace t p is).2 ++ (runTrace t (runTrace t p is).1 js).2) := by
  induction is generalizing p with
  | nil => rfl
  | cons i is ih => rw [List.cons_append, runTrace_cons, ih, runTrace_cons, List.append_assoc]

/-- A run over one more operation adds that operation's beat. -/
theorem runTrace_concat (t : Config.Tables) (p : Byte) (is : List Instr) (i : Instr) :
    runTrace t p (is ++ [i]) =
      ((instrBeat t (runTrace t p is).1 i).pos,
        (runTrace t p is).2 ++ (instrBeat t (runTrace t p is).1 i).out.toList) := by
  rw [runTrace_append, runTrace_cons, runTrace_nil, List.append_nil]

/-- Sampling a beat word leaves everything that a history determines as it was. -/
theorem Follows.sampleBeat {p : Byte} {hist : List Instr} {s : State} (h : Follows p hist s) :
    Follows p hist (sampleBeat s).2 := by
  simpa [Follows] using h

/-- Committing the result of an operation adds that operation to the history. -/
theorem Follows.commit {p : Byte} {hist : List Instr} {s : State} (h : Follows p hist s) (i : Instr) :
    Follows p (hist ++ [i]) (commit s (instrBeat Config.tables s.pos i)) := by
  obtain ⟨hpos, hemitted, -⟩ := h
  refine ⟨?_, ?_, ?_⟩
  · rw [commit_pos, runTrace_concat, hpos]
  · rw [commit_emitted, runTrace_concat, hpos, hemitted]
  · -- The port holds the byte that has just joined the output sequence, or none.
    rw [List.getLast?_concat]
    cases i with
    | rst | nop | clr => rfl
    | dtb b | dtf b => exact List.getLast?_concat.symm

/-- Settles O52: a step samples a word and commits the result of its operation, and each of the two keeps the invariant. -/
theorem everyStepFollowsItsHistory : Obligations.EveryStepFollowsItsHistory := by
  intro p hist s u hfollows hstep
  rw [step, exec_eq_commit] at hstep
  cases hstep
  exact hfollows.sampleBeat.commit _

end Sys2Proof.Machine
end

section
/-! PROOF. Runs and payloads (41_beat_operations.md R96, R99 to R101): the position as a function of the mnemonics of a
trace, the payload functions byte by byte, and the payloads that a trace is split into. -/

namespace Sys2Proof.Machine

/-! ## The position of a run (R96) -/

/-- `POS` after a beat, by the mnemonic of its operation alone. -/
def posAfter (p : Byte) : String → Byte
  | "NOP" => p
  | "DTB" => p + 1#8
  | "DTF" => 1#8
  | _ => 0#8

/-- An operation moves `POS` as its mnemonic says, whatever its data and the tables. -/
theorem instrBeat_pos_eq_posAfter (t : Config.Tables) (p : Byte) (i : Instr) :
    (instrBeat t p i).pos = posAfter p i.mnemonic := by
  cases i <;> rfl

/-- A run moves `POS` as the mnemonics of its operations say, one after the other. -/
theorem runTrace_pos_eq_foldl (t : Config.Tables) (p : Byte) (is : List Instr) :
    (runTrace t p is).1 = (is.map Instr.mnemonic).foldl posAfter p := by
  induction is generalizing p with
  | nil => rfl
  | cons i is ih => rw [runTrace_cons, ih, instrBeat_pos_eq_posAfter, List.map_cons, List.foldl_cons]

/-- Settles O49: the final position is computed from the mnemonics, which are the same. -/
theorem positionIgnoresData : Obligations.PositionIgnoresData := by
  intro t t' p is is' h
  rw [runTrace_pos_eq_foldl, h, runTrace_pos_eq_foldl]

/-! ## The payload functions (R100, R101) -/

/-- Output byte `i` of a payload function started at `p` is the byte function at `(p + i) mod 256` of input byte `i`, if
there is one. -/
theorem getElem?_detransformFrom (t : Config.Tables) (p : Byte) (raw : List Byte) (i : Nat) :
    (detransformFrom t p raw)[i]? = raw[i]?.map (detransformByte t (BitVec.ofNat 8 ((p.toNat + i) % 256))) := by
  have hindex : tableIndex (p.toNat + i) = BitVec.ofNat 8 ((p.toNat + i) % 256) := by
    apply BitVec.eq_of_toNat_eq; simp
  rw [detransformFrom, List.getElem?_mapIdx, hindex]

@[simp] theorem length_detransformFrom (t : Config.Tables) (p : Byte) (raw : List Byte) :
    (detransformFrom t p raw).length = raw.length := List.length_mapIdx

@[simp] theorem length_detransform (t : Config.Tables) (raw : List Byte) :
    (detransform t raw).length = raw.length := List.length_mapIdx

/-- Settles O33: `detransform` maps the byte function over the input, each byte with its position. -/
theorem detransformIsByteByByte : Obligations.DetransformIsByteByByte := by
  refine fun t raw => ⟨length_detransform t raw, fun i b hb => ?_, rfl⟩
  rw [getElem?_detransform, hb, Option.map_some]

/-- Settles O34: the payload function byte by byte, and as what a run of `DTB` beats emits. -/
theorem dtbRunEmitsDetransformFrom : Obligations.DtbRunEmitsDetransformFrom := by
  refine fun t p raw => ⟨fun i b hb => ?_, length_detransformFrom t p raw, detransform_eq_detransformFrom_zero t raw, ?_⟩
  · rw [getElem?_detransformFrom, hb, Option.map_some]
  · rw [runTrace_map_dtb, add_ofNat_eq_mod]

/-! ## The payloads of a trace (R99) -/

@[simp] theorem dropNops_cons_nop (is : List Instr) : dropNops (.nop :: is) = dropNops is := rfl

theorem dropNops_cons_of_ne {i : Instr} (h : i ≠ .nop) (is : List Instr) : dropNops (i :: is) = i :: dropNops is := by
  simp [dropNops, h]

/-- `NOP` beats neither begin a payload nor end one. -/
theorem splitPayloads_dropNops (is : List Instr) : splitPayloads (dropNops is) = splitPayloads is := by
  induction is with
  | nil => rfl
  | cons i is ih =>
    cases i with
    | nop => rw [dropNops_cons_nop, ih, splitPayloads_nop]
    | rst | clr | dtb b | dtf b => simp [dropNops_cons_of_ne, ih]

/-- `DTB` beats at the front of a trace go to the payload in progress. -/
theorem splitPayloads_map_dtb_append (raw : List Byte) (is : List Instr) :
    splitPayloads (raw.map .dtb ++ is) = (raw ++ (splitPayloads is).1, (splitPayloads is).2) := by
  induction raw with
  | nil => rfl
  | cons b bs ih => rw [List.map_cons, List.cons_append, splitPayloads_dtb, ih]; rfl

/-- However a payload is begun, its bytes and what follows of it make up the first payload of the trace. -/
theorem splitPayloads_payloadBegun_append (start : PayloadStart) (raw : List Byte) (is : List Instr) :
    splitPayloads (payloadBegun start raw ++ is) =
      ([], (raw ++ (splitPayloads is).1) :: (splitPayloads is).2) := by
  cases start with
  | byClr | byRst => simp [splitPayloads_map_dtb_append]
  | byDtf => cases raw <;> simp [payload, splitPayloads_map_dtb_append]

/-- Payloads one after the other are found as they were begun, with nothing before them. -/
theorem splitPayloads_flatMap_payloadBegun (parts : List (PayloadStart × List Byte)) :
    splitPayloads (parts.flatMap fun x => payloadBegun x.1 x.2) = ([], parts.map Prod.snd) := by
  induction parts with
  | nil => rfl
  | cons x xs ih => rw [List.flatMap_cons, splitPayloads_payloadBegun_append, ih, List.append_nil, List.map_cons]

/-- Settles O43: without its `NOP` beats the trace is the bytes in progress and then the payloads, and each part is found. -/
theorem payloadsOfATraceAreFound : Obligations.PayloadsOfATraceAreFound := by
  intro inProgress parts is his
  rw [← splitPayloads_dropNops, his, splitPayloads_map_dtb_append, splitPayloads_flatMap_payloadBegun, List.append_nil]

end Sys2Proof.Machine
end

section
/-! PROOF. The laws of the payload functions (42_payload_laws.md R111, R114 to R121): the forward function, output bytes by
position, zero bytes and affinity, concatenation, and a split over workers. -/

namespace Sys2Proof.Machine

/-! ## One byte at its position (R111, R114) -/

/-- A table index takes the position modulo 256. -/
theorem tableIndex_eq_ofNat_mod (i : Nat) : tableIndex i = BitVec.ofNat 8 (i % 256) := by
  apply BitVec.eq_of_toNat_eq; simp

/-- Settles O35: an output byte is a function of its position modulo 256 and the input byte there. -/
theorem outputHasPeriod256 : Obligations.OutputHasPeriod256 := by
  intro t raw i j hposition hbyte
  rw [getElem?_detransform, getElem?_detransform, hposition, hbyte]

/-- A changed input byte changes the output at its position, to what the byte function gives for it, and nowhere else. -/
theorem detransform_set (t : Config.Tables) (raw : List Byte) (i : Nat) (v : Byte) :
    detransform t (raw.set i v) = (detransform t raw).set i (detransformByte t (BitVec.ofNat 8 (i % 256)) v) := by
  rw [detransform, List.mapIdx_set, tableIndex_eq_ofNat_mod, detransform]

/-- Settles O37: an output byte is computed from one input byte, and the byte function is injective. -/
theorem transformIsMemoryless : Obligations.TransformIsMemoryless := by
  refine ⟨fun t raw raw' i _ hbyte => ?_, fun t raw i v => ⟨detransform_set t raw i v, fun b hb hne hsame => hne ?_⟩⟩
  · rw [getElem?_detransform, getElem?_detransform, hbyte]
  · have hlt : i < raw.length := (List.getElem?_eq_some_iff.mp hb).1
    rw [getElem?_detransform, getElem?_detransform, List.getElem?_set_self hlt, hb, Option.map_some, Option.map_some,
      Option.some_inj] at hsame
    exact ((detransformByte_bijective t _).injective hsame).symm

/-! ## The forward function (R115 to R117) -/

@[simp] theorem length_forward (t : Config.Tables) (x : List Byte) : (forward t x).length = x.length :=
  List.length_mapIdx

/-- Byte `i` of the forward function is the forward byte at `i mod 256` of input byte `i`, if there is one. -/
theorem getElem?_forward (t : Config.Tables) (x : List Byte) (i : Nat) :
    (forward t x)[i]? = x[i]?.map (forwardByte t (BitVec.ofNat 8 (i % 256))) := by
  rw [forward, List.getElem?_mapIdx, tableIndex_eq_ofNat_mod]

/-- `detransform` undoes the forward function, byte by byte. -/
@[simp] theorem detransform_forward (t : Config.Tables) (x : List Byte) : detransform t (forward t x) = x := by
  apply List.ext_getElem?
  intro i
  rw [getElem?_detransform, getElem?_forward]
  cases x[i]? <;> simp

/-- The forward function undoes `detransform`, byte by byte. -/
@[simp] theorem forward_detransform (t : Config.Tables) (raw : List Byte) : forward t (detransform t raw) = raw := by
  apply List.ext_getElem?
  intro i
  rw [getElem?_forward, getElem?_detransform]
  cases raw[i]? <;> simp

/-- Settles O38: the byte functions undo each other at every index, so the functions on sequences do. -/
theorem detransformUndoesForward : Obligations.DetransformUndoesForward := by
  refine ⟨fun t k x => ⟨rfl, detransformByte_forwardByte t k x, forwardByte_detransformByte t k x⟩,
    fun t x => ⟨length_forward t x, fun i b hb => ?_⟩, fun t x => ⟨detransform_forward t x, forward_detransform t x⟩⟩
  rw [getElem?_forward, hb, Option.map_some]

/-- Settles O30: the one input sequence that gives an output sequence is the forward function of it. -/
theorem detransformIsABijection : Obligations.DetransformIsABijection := by
  refine ⟨detransformByte_bijective, fun t n out hlen => ⟨forward t out, ⟨?_, detransform_forward t out⟩, ?_⟩⟩
  · rw [length_forward, hlen]
  · rintro raw ⟨-, rfl⟩
    exact (forward_detransform t raw).symm

/-! ## Zero bytes and affinity (R118, R119) -/

/-- Settles O31: a byte of zeros gives the keystream byte of its position. -/
theorem zeroBytesEmitTheKeystream : Obligations.ZeroBytesEmitTheKeystream := by
  refine ⟨fun t k => ⟨detransformByte_zeroes t k, detransformByte_ones t k⟩, fun t n => ?_⟩
  apply List.ext_getElem
  · simp
  · intro i _ _
    simp [detransform, tableIndex_eq_ofNat_mod, detransformByte_zeroes]

/-- `ROTL8` moves bits, and XOR acts on each bit alone. -/
theorem rotl8_xor (a b : Byte) (s : Shift) : rotl8 (a ^^^ b) s = rotl8 a s ^^^ rotl8 b s := by
  apply BitVec.eq_of_getLsbD_eq
  intro m hm
  simp only [BitVec.getLsbD_xor, getLsbD_rotl8 _ s m hm]

/-- The one 1 bit of `0x01` moves to the place of the shift amount. -/
theorem rotl8_one (s : Shift) : rotl8 0x01#8 s = 1#8 <<< s.toNat := by
  revert s; decide

/-- The byte function rotates and then masks (R76). -/
theorem detransformByte_eq_rotl8_xor (t : Config.Tables) (k : Index) (b : Byte) :
    detransformByte t k b = rotl8 b (readSh t k) ^^^ u8 (ksRom t k) := rfl

/-- XOR with the byte that zeros give takes the mask off and leaves the rotation. -/
theorem detransformByte_xor_zeroes (t : Config.Tables) (k : Index) (b : Byte) :
    detransformByte t k b ^^^ detransformByte t k 0x00#8 = rotl8 b (readSh t k) := by
  rw [detransformByte_zeroes, detransformByte_eq_rotl8_xor, BitVec.xor_assoc, BitVec.xor_self, BitVec.xor_zero]

/-- The byte function distributes over XOR, but for the keystream byte. -/
theorem detransformByte_xor (t : Config.Tables) (k : Index) (a b : Byte) :
    detransformByte t k (a ^^^ b) = detransformByte t k a ^^^ detransformByte t k b ^^^ u8 (ksRom t k) := by
  have hunmask : detransformByte t k b ^^^ u8 (ksRom t k) = rotl8 b (readSh t k) := by
    rw [← detransformByte_xor_zeroes, detransformByte_zeroes]
  calc detransformByte t k (a ^^^ b)
      = rotl8 a (readSh t k) ^^^ rotl8 b (readSh t k) ^^^ u8 (ksRom t k) := by
        rw [detransformByte_eq_rotl8_xor, rotl8_xor]
    _ = detransformByte t k a ^^^ rotl8 b (readSh t k) := by rw [detransformByte_eq_rotl8_xor]; ac_rfl
    _ = detransformByte t k a ^^^ detransformByte t k b ^^^ u8 (ksRom t k) := by rw [← hunmask, BitVec.xor_assoc]

/-- Settles O32: rotation distributes over XOR, and the mask cancels against itself. -/
theorem byteFunctionIsAffine : Obligations.ByteFunctionIsAffine := by
  refine ⟨rotl8_xor, fun t k => ⟨detransformByte_xor t k, detransformByte_xor_zeroes t k, ?_⟩⟩
  rw [detransformByte_xor_zeroes, rotl8_one]

/-! ## Concatenation (R120) -/

/-- A payload function started at `p` goes on after `a` at `p` plus the length of `a`, as a run of `DTB` beats does. -/
theorem detransformFrom_append (t : Config.Tables) (p : Byte) (a b : List Byte) :
    detransformFrom t p (a ++ b) =
      detransformFrom t p a ++ detransformFrom t (BitVec.ofNat 8 ((p.toNat + a.length) % 256)) b := by
  have hrun := runTrace_append t p (a.map .dtb) (b.map .dtb)
  rw [← List.map_append] at hrun
  simp only [runTrace_map_dtb, add_ofNat_eq_mod] at hrun
  exact congrArg Prod.snd hrun

/-- `detransform` goes on after `a` at the length of `a`. -/
theorem detransform_append (t : Config.Tables) (a b : List Byte) :
    detransform t (a ++ b) = detransform t a ++ detransformFrom t (BitVec.ofNat 8 (a.length % 256)) b := by
  rw [detransform_eq_detransformFrom_zero, detransformFrom_append, ← detransform_eq_detransformFrom_zero,
    BitVec.toNat_zero, Nat.zero_add]

/-- Settles O39: the second part goes on where the first ends, which is position 0 after whole periods. -/
theorem detransformOfAConcatenation : Obligations.DetransformOfAConcatenation := by
  refine fun t a b => ⟨detransform_append t a b, fun p => detransformFrom_append t p a b, fun hperiods => ?_⟩
  rw [detransform_append, hperiods, ← detransform_eq_detransformFrom_zero]

/-! ## Workers (R121) -/

/-- What a worker answers: the output bytes at its own positions, each with its position. -/
theorem mem_laneResults (t : Config.Tables) (raw : List Byte) (mine : Nat → Bool) (i : Nat) (v : Byte) :
    (i, v) ∈ laneResults t raw mine ↔ mine i = true ∧ (detransform t raw)[i]? = some v := by
  simp only [laneResults, detransform, List.mem_map, List.mem_filter, List.mem_zipIdx_iff_getElem?,
    List.getElem?_mapIdx, Option.map_eq_some_iff, Prod.exists, Prod.mk.injEq]
  constructor
  · rintro ⟨b, _, ⟨hb, hmine⟩, rfl, hv⟩
    exact ⟨hmine, b, hb, hv⟩
  · rintro ⟨hmine, b, hb, hv⟩
    exact ⟨b, i, ⟨hb, hmine⟩, rfl, hv⟩

/-- Results that hold, for every position, the byte of `out` there and no other, are placed as `out`. -/
theorem placeResults_eq_map_some {out : List Byte} {results : List (Nat × Byte)}
    (hresults : ∀ i v, (i, v) ∈ results ↔ out[i]? = some v) :
    placeResults out.length results = out.map some := by
  apply List.ext_getElem
  · simp [placeResults]
  · intro i _ hi
    rw [List.length_map] at hi
    have hmem : (i, out[i]) ∈ results := (hresults i _).mpr (List.getElem?_eq_getElem hi)
    have hfound : (results.find? fun r => r.1 == i).isSome := List.find?_isSome.mpr ⟨_, hmem, beq_self_eq_true i⟩
    obtain ⟨⟨j, v⟩, hfind⟩ := Option.isSome_iff_exists.mp hfound
    obtain rfl : j = i := by simpa using List.find?_some hfind
    have hv : out[j]? = some v := (hresults j v).mp (List.mem_of_find?_eq_some hfind)
    rw [List.getElem?_eq_getElem hi, Option.some_inj] at hv
    simp [placeResults, hfind, hv]

/-- Settles O40: every position has an owner, who answers the output byte there, and nobody answers another. -/
theorem lanesGiveTheSameOutput : Obligations.LanesGiveTheSameOutput := by
  intro t raw n owner howner
  rw [← length_detransform t raw]
  apply placeResults_eq_map_some
  intro i v
  simp only [List.mem_flatMap, List.mem_range, mem_laneResults, beq_iff_eq]
  constructor
  · rintro ⟨_, _, _, hv⟩
    exact hv
  · intro hv
    have hi : i < (detransform t raw).length := (List.getElem?_eq_some_iff.mp hv).1
    rw [length_detransform] at hi
    exact ⟨owner i, howner i hi, rfl, hv⟩

end Sys2Proof.Machine
end

section
/-! PROOF. Streams of beats (42_payload_laws.md R110, R112, R122, R123): the number of bytes a trace emits, the payloads of a
run, and the same of the machine over a listed trace. -/

namespace Sys2Proof.Machine

/-! ## The number of bytes (R112) -/

/-- A beat emits a byte exactly if its word has `rst = 0` and `valid = 1`. -/
theorem isSome_beat_out (t : Config.Tables) (p : Byte) (w : BeatWord) :
    (beat t p w).out.isSome = (!fieldRst w && fieldValid w) := by
  cases w using beatWord_cases <;> simp [beat]

/-- A trace of words emits one byte for each word with `rst = 0` and `valid = 1`. -/
theorem length_runTrace_map_decode (t : Config.Tables) (p : Byte) (ws : List BeatWord) :
    (runTrace t p (ws.map decode)).2.length = ws.countP fun w => !fieldRst w && fieldValid w := by
  induction ws generalizing p with
  | nil => rfl
  | cons w ws ih =>
    rw [List.map_cons, runTrace_cons, List.length_append, ih, Option.length_toList, ← beat, isSome_beat_out,
      List.countP_cons, Nat.add_comm]

/-- Settles O36: `detransform` maps over its input, and a beat emits one byte or none as its word says. -/
theorem lengthIsPreserved : Obligations.LengthIsPreserved := by
  refine ⟨length_detransform, fun _ => rfl, fun t p => ⟨?_, ?_, ?_⟩, length_runTrace_map_decode⟩
  · rw [beat, decode_encode, instrBeat_rst]
  · rw [beat, decode_encode, instrBeat_nop]
  · rw [beat, decode_encode, instrBeat_clr]

/-! ## The payloads of a run (R122) -/

@[simp] theorem runPayloads_nil (t : Config.Tables) (p : Byte) : runPayloads t p [] = ([], []) := rfl

@[simp] theorem runPayloads_rst (t : Config.Tables) (p : Byte) (is : List Instr) :
    runPayloads t p (.rst :: is) = ([], (runPayloads t 0#8 is).1 :: (runPayloads t 0#8 is).2) := rfl

@[simp] theorem runPayloads_nop (t : Config.Tables) (p : Byte) (is : List Instr) :
    runPayloads t p (.nop :: is) = runPayloads t p is := rfl

@[simp] theorem runPayloads_clr (t : Config.Tables) (p : Byte) (is : List Instr) :
    runPayloads t p (.clr :: is) = ([], (runPayloads t 0#8 is).1 :: (runPayloads t 0#8 is).2) := rfl

@[simp] theorem runPayloads_dtb (t : Config.Tables) (p b : Byte) (is : List Instr) :
    runPayloads t p (.dtb b :: is) =
      (detransformByte t p b :: (runPayloads t (p + 1#8) is).1, (runPayloads t (p + 1#8) is).2) := rfl

@[simp] theorem runPayloads_dtf (t : Config.Tables) (p b : Byte) (is : List Instr) :
    runPayloads t p (.dtf b :: is) =
      ([], (detransformByte t 0#8 b :: (runPayloads t 1#8 is).1) :: (runPayloads t 1#8 is).2) := rfl

/-- Each payload begun in a trace emits `detransform` of its bytes, and the payload in progress goes on at `POS`. -/
theorem runPayloads_eq_detransform (t : Config.Tables) (p : Byte) (is : List Instr) :
    runPayloads t p is =
      (detransformFrom t p (splitPayloads is).1, (splitPayloads is).2.map (detransform t)) := by
  induction is generalizing p with
  | nil => rfl
  | cons i is ih =>
    cases i with
    | nop => rw [runPayloads_nop, splitPayloads_nop, ih]
    | rst | clr => simp [ih, detransform_eq_detransformFrom_zero]
    | dtb b => simp [ih, detransformFrom_cons]
    | dtf b => simp [ih, detransform_eq_detransformFrom_zero, detransformFrom_cons]

/-- The bytes of a run are those of its payloads, in order. -/
theorem runTrace_bytes_eq_runPayloads (t : Config.Tables) (p : Byte) (is : List Instr) :
    (runTrace t p is).2 = (runPayloads t p is).1 ++ (runPayloads t p is).2.flatten := by
  induction is generalizing p with
  | nil => rfl
  | cons i is ih => cases i <;> simp [runTrace_cons, ih]

/-- The final `POS` of a run is the ghost position modulo 256, counted from the `POS` it began at. -/
theorem runTrace_pos_eq_ghostPos (t : Config.Tables) (p : Byte) (is : List Instr) :
    (runTrace t p is).1 = BitVec.ofNat 8 (ghostPos p.toNat is % 256) := by
  have hp : BitVec.ofNat 8 (p.toNat % 256) = p := by
    rw [Nat.mod_eq_of_lt p.isLt, BitVec.ofNat_toNat, BitVec.setWidth_eq]
  rw [← runTrace_pos_ghostPos t p.toNat is, hp]

/-- Settles O44: the payloads of the run by induction on the trace, and its final `POS` as the ghost position. -/
theorem streamEqualsFunction : Obligations.StreamEqualsFunction := by
  refine fun t p is => ⟨runPayloads_eq_detransform t p is, runTrace_bytes_eq_runPayloads t p is, ?_,
    runTrace_dropNops t p is, splitPayloads_dropNops is⟩
  rw [runTrace_pos_eq_ghostPos, ghostPos_eq_bytes_since_start]
  cases (splitPayloads is).2.getLast? <;> rfl

/-! ## History (R123) -/

/-- Settles O46: a payload start does not read `POS`, runs compose through `POS`, and a payload begun in a trace emits
`detransform` of its bytes. -/
theorem payloadIsIndependentOfHistory : Obligations.PayloadIsIndependentOfHistory := by
  refine ⟨fun t p p' i is hstart => ?_, runTrace_append, fun t p p' is => ?_⟩
  · obtain rfl | rfl | ⟨b, rfl⟩ := hstart <;> rfl
  · rw [runPayloads_eq_detransform, runPayloads_eq_detransform]

/-! ## The machine over a listed trace (R110, R122) -/

/-- A beat of the block with a word listed takes that word off the list and commits its result. -/
theorem stepWith_pending_cons (t : Config.Tables) (s : State) (w : BeatWord) (rest : List BeatWord) :
    stepWith t { s with pending := w :: rest } = commit { s with pending := rest } (beat t s.pos w) := rfl

/-- The machine over a listed trace: as many steps as there are words run the trace from `POS`, and leave the rest of the
list and the host's choices. -/
theorem run_core_pending_append (s : State) (ws rest : List BeatWord) :
    ∃ u : State,
      Host.Core.run core ws.length { s with pending := ws ++ rest } = .next u ∧
      u.pos = (runTrace Config.tables s.pos (ws.map decode)).1 ∧
      u.emitted = s.emitted ++ (runTrace Config.tables s.pos (ws.map decode)).2 ∧
      u.pending = rest ∧ u.draws = s.draws := by
  induction ws generalizing s with
  | nil => exact ⟨_, rfl, rfl, (List.append_nil _).symm, rfl, rfl⟩
  | cons w ws ih =>
    obtain ⟨u, hrun, hpos, hemitted, hpending, hdraws⟩ := ih (commit s (beat Config.tables s.pos w))
    refine ⟨u, ?_, hpos, ?_, hpending, hdraws⟩
    · rw [List.length_cons, run_core_succ, List.cons_append, stepWith_pending_cons]
      exact hrun
    · rw [hemitted, commit_emitted, List.append_assoc]
      rfl

/-- Settles O20: a beat and a run are functions of `POS` and the words, and both states have the same of each. -/
theorem outputDependsOnPositionAndWordsAlone : Obligations.OutputDependsOnPositionAndWordsAlone := by
  refine ⟨fun s s' w rest rest' => ⟨_, _, step_eq_stepWith _, step_eq_stepWith _, rfl, rfl⟩,
    fun s s' ws rest rest' => ?_⟩
  obtain ⟨u, hrun, hpos, hemitted, -⟩ := run_core_pending_append s ws rest
  obtain ⟨u', hrun', hpos', hemitted', -⟩ := run_core_pending_append { s' with pos := s.pos } ws rest'
  exact ⟨u, u', _, hrun, hrun', hpos.trans hpos'.symm, hemitted, hemitted'⟩

/-- Settles O45: the machine runs the trace, whose bytes are those of its payloads. -/
theorem machineRunEmitsDetransform : Obligations.MachineRunEmitsDetransform := by
  intro s ws rest
  obtain ⟨u, hrun, hpos, hemitted, hpending, hdraws⟩ := run_core_pending_append s ws rest
  refine ⟨u, hrun, hpending, hdraws, ?_, ?_⟩
  · rw [hemitted, runTrace_bytes_eq_runPayloads, runPayloads_eq_detransform, List.append_assoc]
  · rw [hpos, runTrace_pos_eq_ghostPos, ← tableIndex_eq_ofNat_mod, tableIndex]

end Sys2Proof.Machine
end

section
/-! PROOF. The rules of 60_exceptions.md: which table pairs give a machine (R139), the duties of the host (R143), and the
byte of each valid beat (R144). -/

namespace Sys2Proof.Machine

/-! ## Configuration (R139) -/

/-- The four checks on a table pair, by its lengths and entries. -/
theorem wf_iff (r : Config.RawTables) :
    r.wf = true ↔
      r.ks.length = 256 ∧ r.sh.length = 256 ∧ (∀ v ∈ r.ks, -128 ≤ v ∧ v ≤ 255) ∧ ∀ n ∈ r.sh, n ≤ 7 := by
  simp [Config.RawTables.wf, Config.RawTables.ksLengthOk, Config.RawTables.shLengthOk, Config.RawTables.ksRangeOk,
    Config.RawTables.shRangeOk, Config.ksEntryOk, Config.shEntryOk, Config.tableLen, and_assoc]

/-- A table pair that passes every check is taken as it is, and any other is refused. -/
theorem configure_eq_ok_iff (r : Config.RawTables) (t : Config.Tables) :
    configure r = .ok t ↔ r.wf = true ∧ tablesOf r = t := by
  unfold configure Config.RawTables.wf
  split_ifs with hksLen hshLen hksRange hshRange
  · simp [hksLen]
  · simp [hshLen]
  · simp [hksRange]
  · simp [hshRange]
  · rw [Bool.not_eq_false] at hksLen hshLen hksRange hshRange
    simp [hksLen, hshLen, hksRange, hshRange]

/-- A keystream entry in the accepted range is read back as it is, or as the signed reading of an unsigned byte. -/
theorem s8_u8_of_accepted {v : Int} (hlo : -128 ≤ v) (hhi : v ≤ 255) :
    s8 (u8 v) = if v ≤ 127 then v else v - 256 := by
  split
  next hsigned => exact s8_u8 hlo hsigned
  next hunsigned =>
    have hu8 : u8 v = u8 (v - 256) := by
      rw [u8_eq_ofInt, u8_eq_ofInt]
      apply BitVec.eq_of_toNat_eq
      simp only [BitVec.toNat_ofInt]
      omega
    rw [hu8, s8_u8 (by omega) (by omega)]

/-- A list of 256 entries has one at every table index, and `getD` finds it. -/
theorem getD_index_mem {α : Type} {l : List α} (hlen : l.length = 256) (k : Index) (d : α) : l.getD k.toNat d ∈ l := by
  have hk : k.toNat < l.length := hlen ▸ k.isLt
  rw [List.getD_eq_getElem l d hk]
  exact List.getElem_mem hk

/-- Settles O23: acceptance is the four checks, and an entry within its range is stored without loss. -/
theorem onlyWellFormedTablesAreConfigured : Obligations.OnlyWellFormedTablesAreConfigured := by
  refine ⟨fun r => ?_, fun r t hconf k => ?_⟩
  · simp only [configure_eq_ok_iff, exists_and_left, exists_eq', and_true, wf_iff]
  · obtain ⟨hwf, rfl⟩ := (configure_eq_ok_iff r t).mp hconf
    obtain ⟨hksLen, hshLen, hks, hsh⟩ := (wf_iff r).mp hwf
    obtain ⟨hlo, hhi⟩ := hks _ (getD_index_mem hksLen k 0)
    have hshift := hsh _ (getD_index_mem hshLen k 0)
    refine ⟨?_, s8_u8_of_accepted hlo hhi⟩
    exact Nat.mod_eq_of_lt (Nat.lt_succ_of_le hshift)

/-! ## The duties of the host (R143) -/

theorem presentedBytes_cons (w : BeatWord) (ws : List BeatWord) :
    presentedBytes (w :: ws) = (if fieldValid w then [fieldData w] else []) ++ presentedBytes ws := by
  cases h : fieldValid w <;> simp [presentedBytes, h]

/-- With no byte presented in reset, the payload bytes of a trace are the bytes presented, those of the payload in progress
first. -/
theorem splitPayloads_bytes_eq_presentedBytes {ws : List BeatWord} (h : NoByteInReset ws) :
    (splitPayloads (ws.map decode)).1 ++ (splitPayloads (ws.map decode)).2.flatten = presentedBytes ws := by
  induction ws with
  | nil => rfl
  | cons w ws ih =>
    obtain ⟨hw, hws⟩ := List.forall_mem_cons.mp h
    rw [presentedBytes_cons, ← ih hws, List.map_cons]
    cases w using beatWord_cases with
    | rst valid first data =>
      have hvalid : valid = false := by simpa using hw
      simp [hvalid]
    | nop data | clr data | dtb data | dtf data => simp

/-- Settles O50: with nothing before the first payload start, the payloads begun in the trace are all that is presented and
all that is emitted. -/
theorem hostDutiesGiveDetransform : Obligations.HostDutiesGiveDetransform := by
  intro t p ws hstart hreset
  have hpresented := splitPayloads_bytes_eq_presentedBytes hreset
  have hnone : (splitPayloads (ws.map decode)).1 = [] := hstart
  rw [hnone, List.nil_append] at hpresented
  refine ⟨hpresented, ?_⟩
  rw [runTrace_bytes_eq_runPayloads, runPayloads_eq_detransform, hnone, detransformFrom_nil, List.nil_append]

/-! ## The byte of a valid beat (R144, R135) -/

/-- The output of a beat by the fields of its word: `rst` takes effect before `valid`, and `first` chooses index 0. -/
theorem beat_out_eq_ite (t : Config.Tables) (p : Byte) (w : BeatWord) :
    (beat t p w).out =
      if fieldRst w = false ∧ fieldValid w = true then
        some (detransformByte t (if fieldFirst w = true then 0#8 else p) (fieldData w))
      else none := by
  cases w using beatWord_cases <;> simp [beat]

/-- Settles O19: a step commits the result of its beat, whose output the fields of the word decide. -/
theorem oneOutputForEachValidBeat : Obligations.OneOutputForEachValidBeat := by
  intro s w rest
  refine ⟨_, step_eq_stepWith _, ?_⟩
  rw [stepWith_pending_cons]
  exact ⟨beat_out_eq_ite Config.tables s.pos w, isSome_beat_out Config.tables s.pos w, rfl⟩

end Sys2Proof.Machine
end

section
/-! PROOF. The hazards of 70_reset_and_hazards.md: a payload sent without a start (R154). -/

namespace Sys2Proof.Machine

/-- Settles O47: the first payload leaves `POS` at its length modulo 256, and the bytes after it run on from there. -/
theorem missingPayloadStartShiftsTheIndex : Obligations.MissingPayloadStartShiftsTheIndex := by
  intro t p a b
  have hfirst : runTrace t p (payload a) = (BitVec.ofNat 8 (a.length % 256), detransform t a) :=
    runTrace_payloadBegun t p .byDtf a
  rw [runTrace_append, hfirst, runTrace_map_dtb]

end Sys2Proof.Machine
end
